-- ==== Sys2Proof/Word.lean ====
section
/-!
DEFINITION. The words of the machine: registers, 3-bit values, instruction words and the program store.
-/

namespace Sys2Proof

/-- The contents of a general register: `XLEN` = 64 bits, unsigned (00_scope.md R5, 10_state.md R11). -/
abbrev Word := BitVec 64

/-- A 3-bit value: an opcode field, an operand field or one emitted value (20_memory.md R32, 10_state.md R16). -/
abbrev Digit := BitVec 3

/-- The 6-bit instruction word `w` (30_encoding.md R50). -/
abbrev InstrWord := BitVec 6

/-- The program store: the bit sequence `P[0], P[1], ..., P[PROG_BITS - 1]` (00_scope.md R7, 20_memory.md R30).
The addressable unit is one bit and an address is a bit offset. A bit offset at or above the length does
not exist (R39). A given store has exactly one such list, so equal stores are equal data (log 6). -/
abbrev Memory := List Bool

end Sys2Proof
end

