-- ==== Sys2Proof/Config.lean ====
section
/-!
DEFINITION. The parameters of 00_scope.md R5 that are fixed for this hardware, and the one open parameter's
value before the host chooses it. No free value is needed: the spec leaves no result open (10_state.md R24).
-/

namespace Sys2Proof.Config

/-- `XLEN`: the width of A, B and C (00_scope.md R5, 92_eei_decisions.md D2). -/
def xlen : Nat := 64

/-- `NREG`: the number of general registers (00_scope.md R5). -/
def nreg : Nat := 3

/-- `ILEN`: the instruction length in bits (00_scope.md R5, 30_encoding.md R51). -/
def ilen : Nat := 6

/-- `NOPC`: the number of opcodes (00_scope.md R5). -/
def nopc : Nat := 8

/-- DESIGN CHOICE (log 3, unsafe): the value of the parameter `MAX_STEPS` in `State.reset`. `MAX_STEPS` is OPEN
(00_scope.md R5, 92_eei_decisions.md D4). 1000 is what 95_test_vectors.md uses "unless stated". No statement
rests on it: `MAX_STEPS` is a field of the state and every statement holds for every value of it. -/
def maxStepsAtReset : Nat := 1000

end Sys2Proof.Config
end

