-- ==== Sys2Proof/Syntax.lean ====
section
/-!
DEFINITION. The instruction set as syntax: the eight opcodes, the combo operand and the eight instructions
(30_encoding.md R52, R54, R56), one constructor of `Instr` for each row of opcode_table.json.
-/

namespace Sys2Proof

/-- The three general registers (10_state.md R11). -/
inductive Reg where
  | A
  | B
  | C
deriving DecidableEq, Repr

/-- The eight opcodes (30_encoding.md R56), in the order of the table. -/
inductive Opcode where
  | divA
  | xorBLit
  | modB
  | jumpIfA
  | xorBC
  | emit
  | divB
  | divC
deriving DecidableEq, Repr

/-- How an opcode uses the operand field (30_encoding.md R52). -/
inductive OperandKind where
  | literal
  | combo
  | ignored
deriving DecidableEq, Repr

/-- A combo operand (30_encoding.md R54): 0 to 3 stand for themselves, 4, 5, 6 for a register, 7 is reserved. -/
inductive Combo where
  /-- Operand 0 to 3: the value itself. -/
  | lit (v : BitVec 2)
  /-- Operand 4, 5, 6: the live value of A, B, C. -/
  | reg (r : Reg)
  /-- Operand 7: "reserved/invalid" (R58). -/
  | reserved
deriving DecidableEq, Repr

/-- The eight instructions (30_encoding.md R56). -/
inductive Instr where
  /-- DIV_A, opcode 0, combo operand (41_divide_shift.md R91). -/
  | divA (src : Combo)
  /-- XOR_B_LIT, opcode 1, literal operand (42_bitwise.md R100). -/
  | xorBLit (lit : Digit)
  /-- MOD_B, opcode 2, combo operand (42_bitwise.md R101). -/
  | modB (src : Combo)
  /-- JUMP_IF_A, opcode 3, literal operand: an absolute bit offset (43_jump.md R110). -/
  | jumpIfA (lit : Digit)
  /-- XOR_B_C, opcode 4, operand ignored but present in the word (42_bitwise.md R102, 30_encoding.md R55; log 21). -/
  | xorBC (ign : Digit)
  /-- EMIT, opcode 5, combo operand (44_emit.md R120). -/
  | emit (src : Combo)
  /-- DIV_B, opcode 6, combo operand (41_divide_shift.md R92). -/
  | divB (src : Combo)
  /-- DIV_C, opcode 7, combo operand (41_divide_shift.md R93). -/
  | divC (src : Combo)
deriving DecidableEq, Repr

end Sys2Proof
end

