-- ==== Sys2Proof/WellFormed.lean ====
section
/-!
DEFINITION. The static checks of the spec: on an instruction (30_encoding.md R58, R59), on the list of values
given to LOAD (20_memory.md R33, 70_reset_and_hazards.md R174) and on the program store.

The machine itself makes none of the checks on instructions before it executes them: an illegal word decodes
and faults when executed (30_encoding.md R57, R58). They are the premises of cautious claims
(92_eei_decisions.md D7, D8).
-/

namespace Sys2Proof

/-- A combo operand that is not the reserved value 7 (30_encoding.md R58). -/
def Combo.wellFormed : Combo → Bool
  | .lit _ => true
  | .reg _ => true
  | .reserved => false

/-- The word of the instruction is none of the five illegal words of 30_encoding.md R58. -/
def Instr.wellFormed : Instr → Bool
  | .divA src => src.wellFormed
  | .xorBLit _ => true
  | .modB src => src.wellFormed
  | .jumpIfA _ => true
  | .xorBC _ => true
  | .emit src => src.wellFormed
  | .divB src => src.wellFormed
  | .divC src => src.wellFormed

/-- A jump literal that a taken jump can name without an error: 0 or 6 (30_encoding.md R59, 43_jump.md R112). -/
def jumpLiteralValid (lit : Digit) : Bool := lit == 0 || lit == 6

/-- The premise of a cautious claim about one instruction (92_eei_decisions.md D7, D8): no reserved combo
operand, and a jump literal that is 0 or 6. -/
def Instr.cautious : Instr → Bool
  | .jumpIfA lit => jumpLiteralValid lit
  | i => i.wellFormed

/-- Every value of a LOAD list is in `[0, 7]` (20_memory.md R33; premise P1 of 70_reset_and_hazards.md R174). -/
def valuesInRange (vs : List Nat) : Bool := vs.all (· ≤ 7)

/-- A LOAD list has an even number of values (premise P2 of 70_reset_and_hazards.md R174). -/
def valuesPaired (vs : List Nat) : Bool := vs.length % 2 == 0

/-- A LOAD list that makes a well-formed program (premises P1 and P2 of 70_reset_and_hazards.md R174). -/
def valuesWellFormed (vs : List Nat) : Bool := valuesInRange vs && valuesPaired vs

/-- What every loaded store satisfies: `PROG_BITS = 3 * n` (00_scope.md R5, 20_memory.md R33). -/
def Memory.wf (m : Memory) : Bool := m.length % 3 == 0

/-- A well-formed program: `PROG_BITS mod 6 = 0` (00_scope.md R5; premise P2 of 70_reset_and_hazards.md R174). -/
def Memory.wholeInstrs (m : Memory) : Bool := m.length % Config.ilen == 0

end Sys2Proof
end

