-- ==== Sys2Proof/Decode.lean ====
section
/-!
DEFINITION. The bit order of the program store, LOAD's packing (20_memory.md R32, R33), the opcode map and the
decoder (30_encoding.md R50 to R57), the fetch with its two checks (20_memory.md R34), and the encoder.
-/

namespace Sys2Proof

/-! ### Bits -/

/-- The number whose bit `i` is element `i` of the list: `sum of bs[i] * 2^i` (00_scope.md R7, R8). -/
def bitsVal : List Bool → Nat
  | [] => 0
  | b :: bs => b.toNat + 2 * bitsVal bs

/-- The low `n` bits of `v`, least significant first (20_memory.md R32). -/
def natBits : Nat → Nat → List Bool
  | 0, _ => []
  | n + 1, v => (v % 2 == 1) :: natBits n (v / 2)

/-- One bit of the store: `P[k]`, or nothing where bit offset `k` does not exist (20_memory.md R39). -/
def Memory.bit? (m : Memory) (k : Nat) : Option Bool := m[k]?

/-- `MemRead(addr, n)` (00_scope.md R8): the number of the `n` bits from `addr` on, or nothing where fewer
remain. -/
def Memory.read? (m : Memory) (addr n : Nat) : Option Nat :=
  if addr + n ≤ m.length then some (bitsVal ((m.drop addr).take n)) else none

/-! ### LOAD's packing, the source's `encode` -/

/-- The index of the first value above 7, if any: the information of `EncodingError` (70_reset_and_hazards.md R161). -/
def firstBadValue : List Nat → Option Nat
  | [] => none
  | v :: vs => if v ≤ 7 then (firstBadValue vs).map (· + 1) else some 0

/-- Three bits for each value, in list order, least significant bit first (20_memory.md R32). -/
def packBits : List Nat → Memory
  | [] => []
  | v :: vs => natBits 3 v ++ packBits vs

/-- What LOAD makes of its list (20_memory.md R33): the packed store, or the index of the first value above 7. -/
def packValues (vs : List Nat) : Except Nat Memory :=
  match firstBadValue vs with
  | some i => .error i
  | none => .ok (packBits vs)

/-! ### The opcode map -/

/-- The opcode map of 30_encoding.md R56, in ONE table (92_eei_decisions.md D1): the opcode value is the row
number. UNVERIFIED (log 1, unsafe): the numbering is the spec's decision D1. -/
def opcodeMap : List Opcode := [.divA, .xorBLit, .modB, .jumpIfA, .xorBC, .emit, .divB, .divC]

/-- The opcode that a 3-bit opcode field selects. Every value is assigned (40_execution_cycle.md R73). -/
def Opcode.ofDigit (d : Digit) : Opcode := opcodeMap.get ⟨d.toNat, d.isLt⟩

/-- The opcode field of an opcode: its row in the map. -/
def Opcode.digit (op : Opcode) : Digit := BitVec.ofNat 3 (opcodeMap.idxOf op)

/-- The operand kind of each opcode (30_encoding.md R52). -/
def Opcode.kind : Opcode → OperandKind
  | .divA => .combo
  | .xorBLit => .literal
  | .modB => .combo
  | .jumpIfA => .literal
  | .xorBC => .ignored
  | .emit => .combo
  | .divB => .combo
  | .divC => .combo

/-- The mnemonic of each opcode (30_encoding.md R62). -/
def Opcode.mnemonic : Opcode → String
  | .divA => "DIV_A"
  | .xorBLit => "XOR_B_LIT"
  | .modB => "MOD_B"
  | .jumpIfA => "JUMP_IF_A"
  | .xorBC => "XOR_B_C"
  | .emit => "EMIT"
  | .divB => "DIV_B"
  | .divC => "DIV_C"

/-! ### The decoder -/

/-- The combo operand of a 3-bit operand field (30_encoding.md R54). -/
def Combo.ofDigit (d : Digit) : Combo :=
  if d.toNat ≤ 3 then .lit (d.setWidth 2)
  else if d = 4 then .reg .A
  else if d = 5 then .reg .B
  else if d = 6 then .reg .C
  else .reserved

/-- The instruction of an opcode with a raw operand field (30_encoding.md R52, R56). -/
def Instr.ofFields (op : Opcode) (operand : Digit) : Instr :=
  match op with
  | .divA => .divA (.ofDigit operand)
  | .xorBLit => .xorBLit operand
  | .modB => .modB (.ofDigit operand)
  | .jumpIfA => .jumpIfA operand
  | .xorBC => .xorBC operand
  | .emit => .emit (.ofDigit operand)
  | .divB => .divB (.ofDigit operand)
  | .divC => .divC (.ofDigit operand)

/-- Decode a 6-bit instruction word: opcode `w[2:0]`, operand `w[5:3]` (30_encoding.md R50). The decoder is
total: no word is refused (R57). -/
def decode (w : InstrWord) : Instr :=
  Instr.ofFields (Opcode.ofDigit (w.extractLsb' 0 3)) (w.extractLsb' 3 3)

/-- Why a bit offset yields no instruction (20_memory.md R34). -/
inductive DecodeError where
  /-- `DecodeError::Misaligned(off)`: the offset is no multiple of 6 (60_exceptions.md R133). -/
  | misaligned (off : Nat)
  /-- `DecodeError::OutOfRange(off)`: fewer than 6 bits remain (60_exceptions.md R132). -/
  | outOfRange (off : Nat)
deriving DecidableEq, Repr

/-- `Fetch(off)`, the source's `decode_instruction` (20_memory.md R34): alignment first, then range, then the
six bits. It is total on every store and every offset. -/
def decodeInstruction (m : Memory) (off : Nat) : Except DecodeError Instr :=
  if off % Config.ilen ≠ 0 then .error (.misaligned off)
  else match m.read? off Config.ilen with
    | none => .error (.outOfRange off)
    | some w => .ok (decode (BitVec.ofNat 6 w))

/-! ### The encoder -/

/-- The operand field of a combo operand (30_encoding.md R54). -/
def Combo.digit : Combo → Digit
  | .lit v => v.setWidth 3
  | .reg .A => 4
  | .reg .B => 5
  | .reg .C => 6
  | .reserved => 7

/-- The opcode of an instruction. -/
def Instr.opcode : Instr → Opcode
  | .divA _ => .divA
  | .xorBLit _ => .xorBLit
  | .modB _ => .modB
  | .jumpIfA _ => .jumpIfA
  | .xorBC _ => .xorBC
  | .emit _ => .emit
  | .divB _ => .divB
  | .divC _ => .divC

/-- The raw 3-bit operand field of an instruction. -/
def Instr.operand : Instr → Digit
  | .divA src => src.digit
  | .xorBLit lit => lit
  | .modB src => src.digit
  | .jumpIfA lit => lit
  | .xorBC ign => ign
  | .emit src => src.digit
  | .divB src => src.digit
  | .divC src => src.digit

/-- The 6-bit word of an instruction: `w = opcode + 8 * operand` (30_encoding.md R50). -/
def encode (i : Instr) : InstrWord := i.operand ++ i.opcode.digit

/-- The value pair of an instruction in a LOAD list: opcode, then operand (20_memory.md R32). -/
def Instr.values (i : Instr) : List Nat := [i.opcode.digit.toNat, i.operand.toNat]

/-- The LOAD list of a sequence of instructions (30_encoding.md R61). -/
def programValues : List Instr → List Nat
  | [] => []
  | i :: is => i.values ++ programValues is

/-- The assembler line of an instruction: the mnemonic and the raw operand field in decimal (30_encoding.md R62). -/
def Instr.asm (i : Instr) : String := i.opcode.mnemonic ++ " " ++ toString i.operand.toNat

/-! ### Cautious programs -/

/-- The premises P2, D7 and D8 on a whole program, as a check: a whole number of instructions, and each of
them cautious (70_reset_and_hazards.md R174, 92_eei_decisions.md D7, D8). -/
def Memory.cautious (m : Memory) : Bool :=
  m.wholeInstrs && (List.range (m.length / Config.ilen)).all fun k =>
    match decodeInstruction m (Config.ilen * k) with
    | .ok i => i.cautious
    | .error _ => false

/-! ### The host's table words -/

/-- The six stream bits of a word that the opcode table gives `nbits` bits: bit `k` of the word is stream bit
`k`, and the bits at or above `nbits` are 0 (log 24). -/
def tableBits (nbits w : Nat) : Memory := natBits Config.ilen (w % 2 ^ nbits)

/-- The instruction the decoder reads from a word of the opcode table, laid out at bit offset 0. -/
def decodeTableWord (nbits w : Nat) : Option Instr :=
  match decodeInstruction (tableBits nbits w) 0 with
  | .ok i => some i
  | .error _ => none

end Sys2Proof
end

