-- ==== Sys2Proof/Machine/State.lean ====
section
/-!
DEFINITION. The state of one interpreter instance (10_state.md R10) with the program store and the parameter
`MAX_STEPS` of its run, the two reason types of a step's outcome, and the state after power-on reset.
-/

namespace Sys2Proof.Machine

/-- The run state (10_state.md R17). -/
inductive Status where
  /-- Powered on, no run started. -/
  | idle
  /-- A run is in progress. -/
  | running
  /-- The run ended with `pc = PROG_BITS`: the only successful end. -/
  | halted
  /-- An error aborted the run. -/
  | faulted
deriving DecidableEq, Repr

/-- The error codes of 60_exceptions.md R130, as names (92_eei_decisions.md D10). Their numbers are
`ErrCode.number` in Ops.lean. -/
inductive ErrCode where
  /-- Code 0: no error. -/
  | none
  /-- Code 1, `EncodingError`: the outcome of a LOAD, never stored by a step (R131; log 16). -/
  | encodingError
  /-- Code 2, `DecodeError::OutOfRange`: fewer than 6 bits remain at `pc` (R132). -/
  | outOfRange
  /-- Code 3, `DecodeError::Misaligned`: `pc` is no multiple of 6 (R133). -/
  | misaligned
  /-- Code 4, `ExecutionError::InvalidOperand`: combo operand 7 (R134). -/
  | invalidOperand
  /-- Code 5, `ExecutionError::MisalignedJump`: a bad target of a taken jump (R135). -/
  | misalignedJump
  /-- Code 6, `ExecutionError::StepLimitExceeded`: `steps >= MAX_STEPS` at the start of a step (R137). -/
  | stepLimitExceeded
deriving DecidableEq, Repr

/-- Reasons for which a step stops the machine with no next state. There are NONE: every error of this hardware
enters the state `Faulted` (60_exceptions.md R136), so it is a next state, and the step function is total
(10_state.md R24). The type has no constructor, so that no step can end so (log 25; safe). -/
inductive Fault
deriving DecidableEq, Repr

/-- Reasons for which the model gives a request no meaning. -/
inductive Refusal where
  /-- Raised by an arm of `exec` whose instruction has no meaning yet. No arm raises it: all eight
  instructions have their meaning. Safe. -/
  | notModelled (mnemonic : String)
  /-- Raised by the host operation LOAD while `status = Running`, never by `step`: the spec gives that move no
  meaning (70_reset_and_hazards.md R171, 93_implementation_defined.md U11; log 10). Safe. -/
  | loadWhileRunning
deriving DecidableEq, Repr

/-- The state of the machine (10_state.md R10). -/
structure State where
  /-- Register A (R11). -/
  a : Word
  /-- Register B (R11). -/
  b : Word
  /-- Register C (R11). -/
  c : Word
  /-- The instruction pointer, a bit offset (R14, R15). -/
  pc : Nat
  /-- The output sequence, oldest first (R16). -/
  out : List Digit
  /-- The run state (R17). -/
  status : Status
  /-- `err`: the error that aborted the run (R18). -/
  err : ErrCode
  /-- `err_info` (R18, 60_exceptions.md R130). -/
  errInfo : Nat
  /-- The number of steps completed in this run (R19). -/
  steps : Nat
  /-- The program store `P` (20_memory.md R30). -/
  prog : Memory
  /-- The parameter `MAX_STEPS` of the run (00_scope.md R5). No instruction and no host operation writes it. -/
  maxSteps : Nat
deriving DecidableEq, Repr

/-- `PROG_BITS`: the bit length of the loaded program (00_scope.md R5). -/
abbrev State.progBits (s : State) : Nat := s.prog.length

/-- The state right after power-on reset (10_state.md R22, 70_reset_and_hazards.md R160).
A, B and C are "unspecified" there: 0 is a DESIGN CHOICE (log 2, unsafe).
`maxSteps` is an OPEN parameter: its value here is a DESIGN CHOICE (log 3, unsafe). -/
def State.reset : State where
  a := 0
  b := 0
  c := 0
  pc := 0
  out := []
  status := .idle
  err := .none
  errInfo := 0
  steps := 0
  prog := []
  maxSteps := Config.maxStepsAtReset

/-- The same machine with another value of the parameter `MAX_STEPS` (00_scope.md R5: a model takes the OPEN
parameters as arguments). It is no operation of the host on a run. -/
def State.withMaxSteps (s : State) (n : Nat) : State := { s with maxSteps := n }

end Sys2Proof.Machine
end

