-- ==== Sys2Proof/Machine/Ops.lean ====
section
/-!
DEFINITION. The named operations on the state: the two arithmetic primitives, register access, output, the
commit of a step, the entry of an error and the start of a run beside it (the only way on from an error), the
step-limit test and the fetch.
-/

namespace Sys2Proof.Machine

/-! ### Arithmetic -/

/-- `shr(v, n)`, the exact `floor(v / 2^n)` (41_divide_shift.md R90): the logical right shift for `n <= 63`, and 0
for `n >= 64`. The count is never masked (92_eei_decisions.md D3; log 14). -/
def shr (v n : Word) : Word := if n.toNat ≤ 63 then v >>> n.toNat else 0

/-- `v mod 8`, the three low bits of `v` (41_divide_shift.md R94). -/
def mod8 (v : Word) : Digit := v.extractLsb' 0 3

/-- `zext_64` of a 3-bit value (00_scope.md R6). -/
def zext (d : Digit) : Word := d.setWidth 64

/-! ### Registers and output -/

/-- `x[r]`: the live value of a register (00_scope.md R8). -/
def State.read (s : State) : Reg → Word
  | .A => s.a
  | .B => s.b
  | .C => s.c

/-- `x[r] <- v` (00_scope.md R8). All three registers take every value; none is hard-wired (10_state.md R13). -/
def State.write (s : State) (r : Reg) (v : Word) : State :=
  match r with
  | .A => { s with a := v }
  | .B => { s with b := v }
  | .C => { s with c := v }

/-- `emit(v)`: append one value at the end of `out` (10_state.md R16). -/
def State.append (s : State) (v : Digit) : State := { s with out := s.out ++ [v] }

/-! ### The end of a step -/

/-- Commit a step that raised no error (40_execution_cycle.md R78): the new `pc`, one more completed step, and the
halt test of R77. -/
def State.commit (s : State) (next : Nat) : State :=
  { s with
    pc := next
    steps := s.steps + 1
    status := if next = s.progBits then .halted else s.status }

/-- Commit with the sequential `pc + 6` (40_execution_cycle.md R76, 10_state.md R14). -/
def State.advance (s : State) : State := s.commit (s.pc + Config.ilen)

/-! ### Errors -/

/-- The numbers of the error codes (60_exceptions.md R130, 92_eei_decisions.md D10). -/
def ErrCode.number : ErrCode → Nat
  | .none => 0
  | .encodingError => 1
  | .outOfRange => 2
  | .misaligned => 3
  | .invalidOperand => 4
  | .misalignedJump => 5
  | .stepLimitExceeded => 6

/-- Error entry: `raise E(info)` (60_exceptions.md R136). Everything but the error record and the run state keeps the
value it had at the start of the faulting step (92_eei_decisions.md D9; log 7). -/
def State.raise (s : State) (e : ErrCode) (info : Nat) : State :=
  { s with status := .faulted, err := e, errInfo := info }

/-- The start of a run with registers `a`, `b`, `c` (70_reset_and_hazards.md R162). There is no return from an error:
a new run is the only way on (60_exceptions.md R139). -/
def State.startRun (s : State) (a b c : Word) : State :=
  { s with
    a := a
    b := b
    c := c
    pc := 0
    out := []
    status := if s.progBits = 0 then .halted else .running
    err := .none
    errInfo := 0
    steps := 0 }

/-! ### The start of a step -/

/-- Phase 0: the step-limit test `steps >= MAX_STEPS` (40_execution_cycle.md R71; log 15). -/
def State.limitReached (s : State) : Bool := s.maxSteps ≤ s.steps

/-- Phase 1: fetch and decode at `pc` (40_execution_cycle.md R72). -/
def State.fetch (s : State) : Except DecodeError Instr := decodeInstruction s.prog s.pc

/-- The error entry of a failed fetch (20_memory.md R34, 60_exceptions.md R132, R133). -/
def State.raiseDecode (s : State) : DecodeError → State
  | .misaligned off => s.raise .misaligned off
  | .outOfRange off => s.raise .outOfRange off

/-- The stored program with six bits laid at a bit offset: padded with 0 bits below it where the store is
shorter, and unchanged elsewhere. It serves `withFetchWord` alone: no instruction writes the store. -/
def placeBits (m : Memory) (addr : Nat) (bits : Memory) : Memory :=
  (m ++ List.replicate (addr - m.length) false).take addr ++ bits ++ m.drop (addr + bits.length)

end Sys2Proof.Machine
end

