-- ==== Sys2Proof/Machine/Operands.lean ====
section
/-!
DEFINITION. Operand resolution, phase 2 of a step (40_execution_cycle.md R74, R75).
-/

namespace Sys2Proof.Machine

/-- `combo(operand)` (40_execution_cycle.md R74): the literal 0 to 3, the live 64-bit value of A, B or C, or no value
for the reserved operand 7. -/
def comboValue (src : Combo) (s : State) : Option Word :=
  match src with
  | .lit v => some (v.setWidth 64)
  | .reg r => some (s.read r)
  | .reserved => none

/-- The value of a literal operand: the field zero-extended, never scaled (40_execution_cycle.md R75, 30_encoding.md R53). -/
def literalValue (lit : Digit) : Word := zext lit

/-- Go on with the combo value, or raise `InvalidOperand(pc)` with nothing written (40_execution_cycle.md R74). -/
def withCombo (src : Combo) (s : State) (k : Word → State) : State :=
  match comboValue src s with
  | some val => k val
  | none => s.raise .invalidOperand s.pc

end Sys2Proof.Machine
end

