-- ==== Sys2Proof/Machine/Flags.lean ====
section
/-!
DEFINITION. Conditions. The hardware has no flags, condition codes or predicate registers (10_state.md R20), so
no flag is computed here: what stands here is the one condition and the one check an instruction makes.
-/

namespace Sys2Proof.Machine

/-- The condition of JUMP_IF_A: all 64 bits of A, now, against zero (10_state.md R20, 43_jump.md R110). -/
def jumpTaken (s : State) : Bool := s.a != 0

/-- The check of a taken jump's target: a multiple of 6, at most `PROG_BITS` (43_jump.md R111). -/
def jumpTargetValid (target : Nat) (s : State) : Bool :=
  target % Config.ilen == 0 && target ≤ s.progBits

end Sys2Proof.Machine
end

