-- ==== Sys2Proof/Machine/Bitwise.lean ====
section
/-!
DEFINITION. The bitwise family: XOR_B_LIT, MOD_B, XOR_B_C (42_bitwise.md). All three write register B and nothing else.
-/

namespace Sys2Proof.Machine

/-- XOR_B_LIT (42_bitwise.md R100): `B <- B XOR zext_64(operand)`. Operand 7 is the legal literal 7. -/
def execXorBLit (lit : Digit) (s : State) : Host.Outcome State Fault Refusal :=
  .next (s.write .B (s.read .B ^^^ literalValue lit)).advance

/-- MOD_B (42_bitwise.md R101): `B <- combo mod 8`. -/
def execModB (src : Combo) (s : State) : Host.Outcome State Fault Refusal :=
  .next (withCombo src s fun val => (s.write .B (zext (mod8 val))).advance)

/-- XOR_B_C (42_bitwise.md R102): `B <- B XOR C`. The operand field is ignored and raises nothing
(30_encoding.md R55). -/
def execXorBC (_ign : Digit) (s : State) : Host.Outcome State Fault Refusal :=
  .next (s.write .B (s.read .B ^^^ s.read .C)).advance

end Sys2Proof.Machine
end

