-- ==== Sys2Proof/Machine/Divide.lean ====
section
/-!
DEFINITION. The divide-by-power-of-two family: DIV_A, DIV_B, DIV_C (41_divide_shift.md). The dividend of all three
is register A.
-/

namespace Sys2Proof.Machine

/-- DIV_A (41_divide_shift.md R91): `A <- floor(A / 2^combo)`. -/
def execDivA (src : Combo) (s : State) : Host.Outcome State Fault Refusal :=
  .next (withCombo src s fun val => (s.write .A (shr (s.read .A) val)).advance)

/-- DIV_B (41_divide_shift.md R92): `B <- floor(A / 2^combo)`, the full quotient. -/
def execDivB (src : Combo) (s : State) : Host.Outcome State Fault Refusal :=
  .next (withCombo src s fun val => (s.write .B (shr (s.read .A) val)).advance)

/-- DIV_C (41_divide_shift.md R93): `C <- floor(A / 2^combo) mod 8` (90_conflicts.md C9; log 23). -/
def execDivC (src : Combo) (s : State) : Host.Outcome State Fault Refusal :=
  .next (withCombo src s fun val => (s.write .C (zext (mod8 (shr (s.read .A) val)))).advance)

end Sys2Proof.Machine
end

