-- ==== Sys2Proof/Machine/Jump.lean ====
section
/-!
DEFINITION. Control transfer: JUMP_IF_A (43_jump.md).
-/

namespace Sys2Proof.Machine

/-- JUMP_IF_A (43_jump.md R110, R111): when A is not 0, the target is the literal as an absolute bit offset,
checked before `pc` is written; when A is 0 the literal is not looked at (92_eei_decisions.md D8; log 13). -/
def execJumpIfA (lit : Digit) (s : State) : Host.Outcome State Fault Refusal :=
  let target := (literalValue lit).toNat
  .next (if jumpTaken s then
      if jumpTargetValid target s then s.commit target else s.raise .misalignedJump target
    else s.advance)

end Sys2Proof.Machine
end

