-- ==== Sys2Proof/Machine/Output.lean ====
section
/-!
DEFINITION. Output: EMIT (44_emit.md). There are no loads, stores or system instructions (R121, R122).
-/

namespace Sys2Proof.Machine

/-- EMIT (44_emit.md R120): append `combo mod 8` to the output sequence. No register is written. -/
def execEmit (src : Combo) (s : State) : Host.Outcome State Fault Refusal :=
  .next (withCombo src s fun val => (s.append (mod8 val)).advance)

end Sys2Proof.Machine
end

