-- ==== Sys2Proof/Machine/Dispatch.lean ====
section
/-!
DEFINITION. Dispatch: one arm for each instruction (40_execution_cycle.md R73).
-/

namespace Sys2Proof.Machine

def exec (i : Instr) (s : State) : Host.Outcome State Fault Refusal :=
  match i with
  | .divA src => Sys2Proof.Machine.execDivA src s
  | .xorBLit lit => Sys2Proof.Machine.execXorBLit lit s
  | .modB src => Sys2Proof.Machine.execModB src s
  | .jumpIfA lit => Sys2Proof.Machine.execJumpIfA lit s
  | .xorBC ign => Sys2Proof.Machine.execXorBC ign s
  | .emit src => Sys2Proof.Machine.execEmit src s
  | .divB src => Sys2Proof.Machine.execDivB src s
  | .divC src => Sys2Proof.Machine.execDivC src s

end Sys2Proof.Machine
end

