-- ==== Sys2Proof/Machine/Step.lean ====
section
/-!
DEFINITION. One step (40_execution_cycle.md R80), and the placing of one instruction where the next step fetches.
-/

namespace Sys2Proof.Machine

/-- One step (40_execution_cycle.md R80): the step limit, the fetch, then the instruction. Only `Running` has a step;
a step request leaves `Idle`, `Halted` and `Faulted` unchanged (10_state.md R17, 92_eei_decisions.md D14; log 8). -/
def step (s : State) : Host.Outcome State Fault Refusal :=
  match s.status with
  | .idle => .next s
  | .halted => .next s
  | .faulted => .next s
  | .running =>
    if s.limitReached then .next (s.raise .stepLimitExceeded s.steps)
    else match s.fetch with
      | .error e => .next (s.raiseDecode e)
      | .ok i => exec i s

/-- `s` with an instruction of the opcode table stored where `step` fetches next, and everything the very next
step needs to run it: `status = Running`, `pc` a multiple of 6, and the step limit not reached. It stands for
LOAD and INIT, by which a program comes to run (70_reset_and_hazards.md R163; log 9). -/
def State.withFetchWord (s : State) (nbits w : Nat) : State :=
  let addr := s.pc - s.pc % Config.ilen
  { s with
    pc := addr
    prog := placeBits s.prog addr (tableBits nbits w)
    status := .running
    steps := if s.steps < s.maxSteps then s.steps else 0
    maxSteps := if s.maxSteps = 0 then 1 else s.maxSteps }

end Sys2Proof.Machine
end

