-- ==== Sys2Proof/Machine/HostOps.lean ====
section
/-!
DEFINITION. What the outside can do to the machine (70_reset_and_hazards.md R166): power-on reset, LOAD, INIT,
REINIT, RUN and READ, as functions on the state (log 9). The host has no other move: it cannot write a register,
`pc` or `out`, and cannot inject an event.
-/

namespace Sys2Proof.Machine

/-- What READ returns (70_reset_and_hazards.md R168). -/
structure ReadOut where
  status : Status
  err : ErrCode
  errInfo : Nat
  out : List Digit
  a : Word
  b : Word
  c : Word
  pc : Nat
  steps : Nat
deriving DecidableEq, Repr

/-- An operation of the host (70_reset_and_hazards.md R166), or power-on reset (R160). -/
inductive HostOp where
  | powerOn
  | load (vs : List Nat)
  | init (a b c : Word)
  | reinit (a : Word)
  | run
  | read
deriving DecidableEq, Repr

/-- What the host is told. -/
inductive HostReply where
  /-- The operation is done. -/
  | done
  /-- LOAD constructed no program: the index of the first value above 7 (60_exceptions.md R131). -/
  | encodingError (index : Nat)
  /-- What READ returns. -/
  | values (r : ReadOut)
deriving DecidableEq, Repr

/-- Power-on reset (70_reset_and_hazards.md R160). The parameter `MAX_STEPS` is no state that reset changes (log 18). -/
def powerOn (s : State) : State := State.reset.withMaxSteps s.maxSteps

/-- LOAD (70_reset_and_hazards.md R161): on success the store is replaced whole and nothing else changes; on a value
above 7 nothing changes. While `Running` it has no meaning (R171). -/
def load (vs : List Nat) (s : State) : Host.Outcome (State × HostReply) Fault Refusal :=
  if s.status = .running then .refused .loadWhileRunning
  else match packValues vs with
    | .error i => .next (s, .encodingError i)
    | .ok m => .next ({ s with prog := m }, .done)

/-- INIT (70_reset_and_hazards.md R162). -/
def init (a b c : Word) (s : State) : State := s.startRun a b c

/-- REINIT (70_reset_and_hazards.md R164): INIT with B = C = 0. -/
def reinit (a : Word) (s : State) : State := s.startRun a 0 0

/-- The state after one step request. Every step answers a next state, so the last arms are never taken. -/
def stepState (s : State) : State :=
  match step s with
  | .next t => t
  | .fault _ => s
  | .refused _ => s

/-- At most `n` steps, stopping when the run has ended: `while status = Running do Step()` with a bound. -/
def runFor : Nat → State → State
  | 0, s => s
  | n + 1, s => if s.status = .running then runFor n (stepState s) else s

/-- RUN (70_reset_and_hazards.md R167, 40_execution_cycle.md R81): a run completes at most `MAX_STEPS` steps, so one
more than the steps left is bound enough (log 17). -/
def run (s : State) : State := runFor (s.maxSteps - s.steps + 1) s

/-- READ (70_reset_and_hazards.md R168). -/
def readOut (s : State) : ReadOut where
  status := s.status
  err := s.err
  errInfo := s.errInfo
  out := s.out
  a := s.a
  b := s.b
  c := s.c
  pc := s.pc
  steps := s.steps

/-- One operation of the host: the state it leaves and what it answers. -/
def perform (op : HostOp) (s : State) : Host.Outcome (State × HostReply) Fault Refusal :=
  match op with
  | .powerOn => .next (powerOn s, .done)
  | .load vs => load vs s
  | .init a b c => .next (init a b c s, .done)
  | .reinit a => .next (reinit a s, .done)
  | .run => .next (run s, .done)
  | .read => .next (s, .values (readOut s))

end Sys2Proof.Machine
end

