-- ==== Sys2Proof/Safety.lean ====
section
/-!
DEFINITION. What counts as a coherent state and a safe run, in the terms the statements use; the read and write
sets of the instructions; and the step of 40_execution_cycle.md R80 transcribed on numbers, which the model's step
is claimed to equal.
-/

namespace Sys2Proof.Machine

/-- What holds of the machine from power-on on, whatever the host does (10_state.md R10, R15, R16, R17, R18). -/
structure State.Inv (s : State) : Prop where
  /-- `PROG_BITS = 3 * n` (00_scope.md R5). -/
  storeInThrees : s.prog.wf = true
  /-- `pc` is a multiple of 6 (R15; for odd-length programs too, 60_exceptions.md R133). -/
  pcAligned : s.pc % 6 = 0
  /-- A `Running` state has `pc < PROG_BITS`, or it would have halted (60_exceptions.md R132). -/
  pcInProgram : s.status = .running → s.pc < s.progBits
  /-- `0 <= steps <= MAX_STEPS` (R10). -/
  stepsWithinLimit : s.steps ≤ s.maxSteps
  /-- A step appends at most one value (R16). -/
  outWithinSteps : s.out.length ≤ s.steps
  /-- An error is recorded exactly while `Faulted` (R18). -/
  errExactlyFaulted : s.err = .none ↔ s.status ≠ .faulted
  /-- `EncodingError` is LOAD's outcome, never a run's (60_exceptions.md R131). -/
  errNotEncoding : s.err ≠ .encodingError

/-- What holds besides during a run, until the host loads another program (10_state.md R15, R17). -/
structure State.RunInv (s : State) : Prop extends State.Inv s where
  /-- `pc <= PROG_BITS` (R15). -/
  pcWithinProgram : s.pc ≤ s.progBits
  /-- A `Halted` state has `pc = PROG_BITS` (40_execution_cycle.md R77). -/
  haltedAtEnd : s.status = .halted → s.pc = s.progBits

/-- A run that ended without an error (60_exceptions.md R136: `Faulted` is never a successful end). -/
def State.Succeeded (s : State) : Prop := s.status = .halted

/-- The registers an instruction reads: those it always reads and the one its combo operand selects
(10_state.md R12). -/
def Combo.regs : Combo → List Reg
  | .lit _ => []
  | .reg r => [r]
  | .reserved => []

/-- The table of 10_state.md R12, columns "always reads" and "may read through combo". -/
def readsOf : Instr → List Reg
  | .divA src => .A :: Combo.regs src
  | .xorBLit _ => [.B]
  | .modB src => Combo.regs src
  | .jumpIfA _ => [.A]
  | .xorBC _ => [.B, .C]
  | .emit src => Combo.regs src
  | .divB src => .A :: Combo.regs src
  | .divC src => .A :: Combo.regs src

/-- The table of 10_state.md R12, column "writes". -/
def writesOf : Instr → List Reg
  | .divA _ => [.A]
  | .xorBLit _ => [.B]
  | .modB _ => [.B]
  | .jumpIfA _ => []
  | .xorBC _ => [.B]
  | .emit _ => []
  | .divB _ => [.B]
  | .divC _ => [.C]

/-- `raise E(info)` of 60_exceptions.md R136, spelled out on the state for the transcription below. -/
def refRaise (s : State) (e : ErrCode) (info : Nat) : State :=
  { s with status := .faulted, err := e, errInfo := info }

/-- The value of phase 2 of R80, as a number; 0 where the opcode uses no operand. -/
def refVal (s : State) (opcode operand : Nat) : Nat :=
  if opcode ∈ [0, 2, 5, 6, 7] then
    if operand ≤ 3 then operand
    else if operand = 4 then s.a.toNat
    else if operand = 5 then s.b.toNat
    else s.c.toNat
  else operand

/-- Phases 3 and 4 of R80 for a step that raises no error, from the numbers of phases 1 and 2. -/
def refCommit (s : State) (opcode operand : Nat) : State :=
  let val := refVal s opcode operand
  let quotient := s.a.toNat / 2 ^ val
  let next := if opcode = 3 ∧ s.a.toNat ≠ 0 then val else s.pc + 6
  { s with
    a := if opcode = 0 then BitVec.ofNat 64 quotient else s.a
    b :=
      if opcode = 1 then BitVec.ofNat 64 (s.b.toNat ^^^ val)
      else if opcode = 2 then BitVec.ofNat 64 (val % 8)
      else if opcode = 4 then BitVec.ofNat 64 (s.b.toNat ^^^ s.c.toNat)
      else if opcode = 6 then BitVec.ofNat 64 quotient
      else s.b
    c := if opcode = 7 then BitVec.ofNat 64 (quotient % 8) else s.c
    out := if opcode = 5 then s.out ++ [BitVec.ofNat 3 (val % 8)] else s.out
    pc := next
    steps := s.steps + 1
    status := if next = s.progBits then .halted else .running }

/-- The step of 40_execution_cycle.md R80, line by line, with the instruction word taken from the stream number `S`
(`w = floor(S / 2^pc) mod 64`, 20_memory.md R34) and all arithmetic on natural numbers. -/
def refStep (s : State) : State :=
  if s.status ≠ .running then s
  else if s.steps ≥ s.maxSteps then refRaise s .stepLimitExceeded s.steps
  else if s.pc % 6 ≠ 0 then refRaise s .misaligned s.pc
  else if s.pc + 6 > s.progBits then refRaise s .outOfRange s.pc
  else
    let w := bitsVal s.prog / 2 ^ s.pc % 64
    let opcode := w % 8
    let operand := w / 8
    if opcode ∈ [0, 2, 5, 6, 7] ∧ operand = 7 then refRaise s .invalidOperand s.pc
    else if opcode = 3 ∧ s.a.toNat ≠ 0 ∧ (operand % 6 ≠ 0 ∨ operand > s.progBits) then
      refRaise s .misalignedJump operand
    else refCommit s opcode operand

end Sys2Proof.Machine
end

