-- ==== Sys2Proof/Certificates/Slice0/Obligations.lean ====
section
/-!
DEFINITION. The statements for the provers. Each docstring names the rule of spec/ a statement formalises; where a
clause rests on a decision or an inference the spec marks as its own, or on the model's choice, it says so.
-/

open Sys2Proof Sys2Proof.Machine

/-! ### Encoding, LOAD and fetch -/

/-- Words written out from the encodings of 95_test_vectors.md (V-E1, V-E4, V-E8, V-D10, V-X10, V-J3) decode to the
instructions they stand for. The opcode numbers are the spec's decision D1 (log 1). -/
def Obligations.SpecWordsDecode : Prop :=
  decode 0b100101#6 = .emit (.reg .A) ∧ decode 0b001000#6 = .divA (.lit 1) ∧ decode 0b000011#6 = .jumpIfA 0 ∧
  decode 0b111111#6 = .divC .reserved ∧ decode 0b100010#6 = .modB (.reg .A) ∧ decode 0b001001#6 = .xorBLit 1 ∧
  decode 0b101111#6 = .divC (.reg .B) ∧ decode 0b110100#6 = .xorBC 6 ∧ decode 0b101101#6 = .emit (.reg .B) ∧
  decode 0b111000#6 = .divA .reserved ∧ decode 0b111100#6 = .xorBC 7 ∧ decode 0b110011#6 = .jumpIfA 6 ∧
  decode 0b101110#6 = .divB (.reg .B)

/-- Every word spells exactly one instruction (30_encoding.md section 3, an inference the spec marks as its own). That
every instruction has exactly one word is the MODEL'S choice: it keeps the ignored operand of XOR_B_C in the syntax
(log 21, DESIGN CHOICE), where section 4 of the spec counts the eight words with opcode 4 as the same instruction. -/
def Obligations.WordsAndInstructionsCorrespond : Prop :=
  ∀ (w : InstrWord) (i : Instr), decode w = i ↔ encode i = w

/-- DECODE AND ENCODE AGREE, through the program store: the value list of any sequence of instructions, with every
operand the encoding admits, loads; and the fetch at every multiple of 6 gives back the instruction put there, and
nothing beyond the end. -/
def Obligations.AssembledProgramDecodesInstructionByInstruction : Prop :=
  ∀ is : List Instr, ∃ m, packValues (programValues is) = .ok m ∧ m.length = 6 * is.length ∧
    (∀ (k : Nat) (h : k < is.length), decodeInstruction m (6 * k) = .ok is[k]) ∧
    (∀ k : Nat, is.length ≤ k → decodeInstruction m (6 * k) = .error (.outOfRange (6 * k)))

/-- The round-trip law of 20_memory.md R35: for every even `n`, every list `v` of `n` values in `[0,7]` and every
`k < n/2`, `Fetch(6k) = (v[2k], v[2k+1])`. -/
def Obligations.FetchRecoversLoadedPairs : Prop :=
  ∀ vs : List Nat, vs.length % 2 = 0 → (∀ v ∈ vs, v ≤ 7) → ∃ m, packValues vs = .ok m ∧
    ∀ (k : Nat) (h : 2 * k + 1 < vs.length), ∃ i, decodeInstruction m (6 * k) = .ok i ∧
      i.opcode.digit.toNat = vs[2 * k] ∧ i.operand.toNat = vs[2 * k + 1]

/-- The packing formula of 20_memory.md section 2: three bits for each value, least significant first, so that the
stream as one number has the list as its base-8 digits (the number form is an inference the spec marks as its own). -/
def Obligations.PackingFollowsBitFormula : Prop :=
  ∀ vs : List Nat, (∀ v ∈ vs, v ≤ 7) → ∃ m, packValues vs = .ok m ∧ m.length = 3 * vs.length ∧
    (∀ (k : Nat) (h : k < vs.length) (j : Nat), j < 3 → m.bit? (3 * k + j) = some (vs[k].testBit j)) ∧
    bitsVal m = Nat.ofDigits 8 vs

/-- What LOAD does (70_reset_and_hazards.md section 1). That it leaves everything on a value above 7 is the spec's
decision D12; that it has no meaning while `Running` is its decision D22, and the refusal is the model's (log 10). -/
def Obligations.LoadReplacesStoreOrReportsFirstBadValue : Prop :=
  ∀ (vs : List Nat) (s : State),
    (s.status = .running → load vs s = .refused .loadWhileRunning) ∧
    (s.status ≠ .running → ∀ (k : Nat) (h : k < vs.length), 7 < vs[k] → (∀ v ∈ vs.take k, v ≤ 7) →
      load vs s = .next (s, .encodingError k)) ∧
    (s.status ≠ .running → (∀ v ∈ vs, v ≤ 7) → ∃ m, load vs s = .next ({ s with prog := m }, .done) ∧
      m.length = 3 * vs.length ∧
      ∀ (k : Nat) (h : k < vs.length) (j : Nat), j < 3 → m.bit? (3 * k + j) = some (vs[k].testBit j))

/-- The fetch on every store and every bit offset (20_memory.md section 3). The order of its two checks is the spec's
decision D11. -/
def Obligations.FetchChecksAlignmentThenRangeThenReads : Prop :=
  ∀ (m : Memory) (off : Nat),
    (off % 6 ≠ 0 → decodeInstruction m off = .error (.misaligned off)) ∧
    (off % 6 = 0 → m.length < off + 6 → decodeInstruction m off = .error (.outOfRange off)) ∧
    (off % 6 = 0 → off + 6 ≤ m.length → ∃ i, decodeInstruction m off = .ok i ∧
      (∀ j < 3, m.bit? (off + j) = some (i.opcode.digit.getLsbD j)) ∧
      (∀ j < 3, m.bit? (off + 3 + j) = some (i.operand.getLsbD j)) ∧
      i = decode (BitVec.ofNat 6 (bitsVal m / 2 ^ off % 64)))

/-- A step of a run below its step limit, at a `pc` whose bits decode to an instruction, is that instruction; nothing
is added around it. -/
def Obligations.StepRunsDecodedInstruction : Prop :=
  ∀ (s : State) (i : Instr), s.status = .running → s.steps < s.maxSteps →
    decodeInstruction s.prog s.pc = .ok i → step s = exec i s

/-- `withFetchWord` places an instruction so that the very next step runs exactly it, from every state (the model's
own function, log 9). -/
def Obligations.PlacedWordRunsNext : Prop :=
  ∀ (s : State) (nbits w : Nat), ∃ i, decodeTableWord nbits w = some i ∧
    step (s.withFetchWord nbits w) = exec i (s.withFetchWord nbits w)

/-! ### Operands -/

/-- Combo operand assembly (30_encoding.md R54), with the error for operand 7. -/
def Obligations.ComboOperandSelectsLiteralOrRegister : Prop :=
  ∀ (s : State) (d : Digit),
    (d.toNat ≤ 3 → comboValue (.ofDigit d) s = some (BitVec.ofNat 64 d.toNat)) ∧
    (d = 4 → comboValue (.ofDigit d) s = some s.a) ∧
    (d = 5 → comboValue (.ofDigit d) s = some s.b) ∧
    (d = 6 → comboValue (.ofDigit d) s = some s.c) ∧
    (d = 7 → comboValue (.ofDigit d) s = none ∧
      ∀ k, (withCombo (.ofDigit d) s k).err = .invalidOperand ∧ (withCombo (.ofDigit d) s k).status = .faulted)

/-- Operand 7 raises InvalidOperand, with nothing written, for exactly the opcodes of combo kind (the tables of
30_encoding.md sections 2 and 4; when it is raised is the spec's decision D7, the opcode map its decision D1). -/
def Obligations.OperandSevenIsIllegalExactlyForComboKind : Prop :=
  ∀ (op : Opcode) (s : State), exec (Instr.ofFields op 7) s = .next { s with
      status := .faulted
      err := .invalidOperand
      errInfo := s.pc } ↔ op.kind = .combo

/-- The ignored operand of XOR_B_C (30_encoding.md R55): all 8 values behave alike and none raises an error. -/
def Obligations.IgnoredOperandHasNoEffect : Prop :=
  ∀ (m n : Digit) (s : State), decode (BitVec.ofNat 6 (4 + 8 * n.toNat)) = .xorBC n ∧
    exec (.xorBC m) s = exec (.xorBC n) s ∧ ∃ t, exec (.xorBC n) s = .next t ∧ t.err = s.err ∧ t.pc = s.pc + 6

/-! ### The eight instructions

In each, the record after `.next` states the result and the frame: a field not listed keeps its value. -/

/-- DIV_A (41_divide_shift.md R91): encoding, effect for every operand that has a value, and the error of operand 7. -/
def Obligations.DivAShiftsAByCombo : Prop :=
  (∀ n : Digit, decode (BitVec.ofNat 6 (0 + 8 * n.toNat)) = .divA (.ofDigit n)) ∧
  (∀ (src : Combo) (val : Word) (s : State), comboValue src s = some val →
    exec (.divA src) s = .next { s with
      a := BitVec.ofNat 64 (s.a.toNat / 2 ^ val.toNat)
      pc := s.pc + 6
      steps := s.steps + 1
      status := if s.pc + 6 = s.progBits then .halted else s.status }) ∧
  (∀ s : State, exec (.divA (.ofDigit 7)) s = .next { s with
      status := .faulted
      err := .invalidOperand
      errInfo := s.pc })

/-- DIV_B (41_divide_shift.md R92): the dividend is A, the full quotient goes to B. -/
def Obligations.DivBPutsQuotientOfAIntoB : Prop :=
  (∀ n : Digit, decode (BitVec.ofNat 6 (6 + 8 * n.toNat)) = .divB (.ofDigit n)) ∧
  (∀ (src : Combo) (val : Word) (s : State), comboValue src s = some val →
    exec (.divB src) s = .next { s with
      b := BitVec.ofNat 64 (s.a.toNat / 2 ^ val.toNat)
      pc := s.pc + 6
      steps := s.steps + 1
      status := if s.pc + 6 = s.progBits then .halted else s.status }) ∧
  (∀ s : State, exec (.divB (.ofDigit 7)) s = .next { s with
      status := .faulted
      err := .invalidOperand
      errInfo := s.pc })

/-- DIV_C (41_divide_shift.md R93): the quotient of A modulo 8 goes to C. -/
def Obligations.DivCPutsQuotientOfAModEightIntoC : Prop :=
  (∀ n : Digit, decode (BitVec.ofNat 6 (7 + 8 * n.toNat)) = .divC (.ofDigit n)) ∧
  (∀ (src : Combo) (val : Word) (s : State), comboValue src s = some val →
    exec (.divC src) s = .next { s with
      c := BitVec.ofNat 64 (s.a.toNat / 2 ^ val.toNat % 8)
      pc := s.pc + 6
      steps := s.steps + 1
      status := if s.pc + 6 = s.progBits then .halted else s.status }) ∧
  (∀ s : State, exec (.divC (.ofDigit 7)) s = .next { s with
      status := .faulted
      err := .invalidOperand
      errInfo := s.pc })

/-- XOR_B_LIT (42_bitwise.md R100): every literal is legal; bits 63..3 of B are kept. -/
def Obligations.XorBLitFlipsLowBitsOfB : Prop :=
  (∀ n : Digit, decode (BitVec.ofNat 6 (1 + 8 * n.toNat)) = .xorBLit n) ∧
  (∀ (n : Digit) (s : State), exec (.xorBLit n) s = .next { s with
      b := BitVec.ofNat 64 (s.b.toNat ^^^ n.toNat)
      pc := s.pc + 6
      steps := s.steps + 1
      status := if s.pc + 6 = s.progBits then .halted else s.status }) ∧
  (∀ (n : Digit) (s t : State), exec (.xorBLit n) s = .next t →
    t.b.extractLsb' 0 3 = s.b.extractLsb' 0 3 ^^^ n ∧ t.b.extractLsb' 3 61 = s.b.extractLsb' 3 61)

/-- MOD_B (42_bitwise.md R101): the combo value modulo 8 goes to B. -/
def Obligations.ModBPutsComboModEightIntoB : Prop :=
  (∀ n : Digit, decode (BitVec.ofNat 6 (2 + 8 * n.toNat)) = .modB (.ofDigit n)) ∧
  (∀ (src : Combo) (val : Word) (s : State), comboValue src s = some val →
    exec (.modB src) s = .next { s with
      b := BitVec.ofNat 64 (val.toNat % 8)
      pc := s.pc + 6
      steps := s.steps + 1
      status := if s.pc + 6 = s.progBits then .halted else s.status }) ∧
  (∀ s : State, exec (.modB (.ofDigit 7)) s = .next { s with
      status := .faulted
      err := .invalidOperand
      errInfo := s.pc })

/-- XOR_B_C (42_bitwise.md R102): the full 64-bit exclusive-or, whatever the operand field. -/
def Obligations.XorBCPutsXorIntoB : Prop :=
  (∀ n : Digit, decode (BitVec.ofNat 6 (4 + 8 * n.toNat)) = .xorBC n) ∧
  (∀ (n : Digit) (s : State), exec (.xorBC n) s = .next { s with
      b := BitVec.ofNat 64 (s.b.toNat ^^^ s.c.toNat)
      pc := s.pc + 6
      steps := s.steps + 1
      status := if s.pc + 6 = s.progBits then .halted else s.status })

/-- JUMP_IF_A (43_jump.md R110): not taken when A is 0, whatever the literal; taken to a valid target; and the error for
a bad target of a taken jump. -/
def Obligations.JumpIfABranchesOnWholeA : Prop :=
  (∀ n : Digit, decode (BitVec.ofNat 6 (3 + 8 * n.toNat)) = .jumpIfA n) ∧
  (∀ (n : Digit) (s : State), s.a.toNat = 0 → exec (.jumpIfA n) s = .next { s with
      pc := s.pc + 6
      steps := s.steps + 1
      status := if s.pc + 6 = s.progBits then .halted else s.status }) ∧
  (∀ (n : Digit) (s : State), s.a.toNat ≠ 0 → n.toNat % 6 = 0 → n.toNat ≤ s.progBits →
    exec (.jumpIfA n) s = .next { s with
      pc := n.toNat
      steps := s.steps + 1
      status := if n.toNat = s.progBits then .halted else s.status }) ∧
  (∀ (n : Digit) (s : State), s.a.toNat ≠ 0 → (n.toNat % 6 ≠ 0 ∨ n.toNat > s.progBits) →
    exec (.jumpIfA n) s = .next { s with
      status := .faulted
      err := .misalignedJump
      errInfo := n.toNat })

/-- EMIT (44_emit.md R120): exactly one value, the combo value modulo 8, is appended; no register is written. -/
def Obligations.EmitAppendsComboModEight : Prop :=
  (∀ n : Digit, decode (BitVec.ofNat 6 (5 + 8 * n.toNat)) = .emit (.ofDigit n)) ∧
  (∀ (src : Combo) (val : Word) (s : State), comboValue src s = some val →
    exec (.emit src) s = .next { s with
      out := s.out ++ [BitVec.ofNat 3 (val.toNat % 8)]
      pc := s.pc + 6
      steps := s.steps + 1
      status := if s.pc + 6 = s.progBits then .halted else s.status }) ∧
  (∀ s : State, exec (.emit (.ofDigit 7)) s = .next { s with
      status := .faulted
      err := .invalidOperand
      errInfo := s.pc })

/-! ### Corner cases of the instructions -/

/-- `shr` is the exact floor, never masks its count and never exceeds its dividend (41_divide_shift.md section 1; that a
count of 64 or more gives 0 is the spec's decision D3). -/
def Obligations.ShiftIsExactFloorForEveryCount : Prop :=
  ∀ v n : Word, (shr v n).toNat = v.toNat / 2 ^ n.toNat ∧ (shr v n).toNat ≤ v.toNat ∧
    (64 ≤ n.toNat → shr v n = 0) ∧ (n.toNat ≤ 63 → ∀ j, (shr v n).getLsbD j = v.getLsbD (n.toNat + j))

/-- `DIV_A 4` always clears A (41_divide_shift.md section 2, an inference the spec marks as its own). -/
def Obligations.DivAByItselfClearsA : Prop :=
  ∀ s : State, ∃ t, exec (.divA (.reg .A)) s = .next t ∧ t.a = 0

/-- After DIV_C, C is the field `A[val+2 : val]`, with bits of A above 63 read as 0, and so at most 7
(41_divide_shift.md section 2, the field form an inference the spec marks as its own). -/
def Obligations.DivCKeepsThreeBitFieldOfA : Prop :=
  ∀ (src : Combo) (val : Word) (s : State), comboValue src s = some val →
    ∃ t, exec (.divC src) s = .next t ∧ t.c.toNat ≤ 7 ∧
      ∀ j < 3, t.c.getLsbD j = s.a.getLsbD (val.toNat + j)

/-- Which literals a taken jump can name, once its own fetch has succeeded (43_jump.md section on targets, an inference
the spec marks as its own): 0, always; 6, always, halting when `PROG_BITS = 6`; all others raise MisalignedJump. -/
def Obligations.TakenJumpReachesOnlyOffsetsZeroAndSix : Prop :=
  ∀ (n : Digit) (s : State), s.a ≠ 0 → s.pc + 6 ≤ s.progBits → exec (.jumpIfA n) s = .next (
    if n = 0 then { s with pc := 0, steps := s.steps + 1 }
    else if n = 6 then { s with
      pc := 6
      steps := s.steps + 1
      status := if s.progBits = 6 then .halted else s.status }
    else { s with status := .faulted, err := .misalignedJump, errInfo := n.toNat })

/-- Inside one step every read sees the values at its start: the four instances of 40_execution_cycle.md section 7 in
which source and destination are the same register. -/
def Obligations.OverlappingOperandsUseOldValues : Prop :=
  ∀ s : State,
    (∃ t, exec (.divA (.reg .A)) s = .next t ∧ t.a.toNat = s.a.toNat / 2 ^ s.a.toNat) ∧
    (∃ t, exec (.modB (.reg .B)) s = .next t ∧ t.b.toNat = s.b.toNat % 8) ∧
    (∃ t, exec (.divB (.reg .B)) s = .next t ∧ t.b.toNat = s.a.toNat / 2 ^ s.b.toNat) ∧
    (∃ t, exec (.divC (.reg .C)) s = .next t ∧ t.c.toNat = s.a.toNat / 2 ^ s.c.toNat % 8)

/-- A jump to itself with A not 0, `JUMP_IF_A 0` at offset 0 or `JUMP_IF_A 6` at offset 6 (no other literal can name the
offset of its own jump), is ended by the step limit alone, with nothing else changed (43_jump.md section on targets, an
inference the spec marks as its own). The run is the bounded iteration of log 17 (DEDUCED). -/
def Obligations.JumpToItselfEndsOnlyByStepLimit : Prop :=
  ∀ (s : State) (n : Digit), s.status = .running → s.pc = n.toNat → s.a ≠ 0 →
    decodeInstruction s.prog n.toNat = .ok (.jumpIfA n) →
    (n = 0 ∨ n = 6) ∧ run s = { s with
      steps := max s.steps s.maxSteps
      status := .faulted
      err := .stepLimitExceeded
      errInfo := max s.steps s.maxSteps }

/-! ### Frames over all instructions -/

/-- What each instruction leaves unchanged: A but for DIV_A, C but for DIV_C, B but for its four writers, `out` but for
EMIT; and for every instruction every bit of the program store and the parameter MAX_STEPS (10_state.md section 2, a
table the spec marks as inferred; 20_memory.md section 8). -/
def Obligations.InstructionsWriteOnlyTheirDestinations : Prop :=
  ∀ (i : Instr) (s t : State), exec i s = .next t →
    (i.opcode ≠ .divA → t.a = s.a) ∧
    (i.opcode ≠ .xorBLit → i.opcode ≠ .modB → i.opcode ≠ .xorBC → i.opcode ≠ .divB → t.b = s.b) ∧
    (i.opcode ≠ .divC → t.c = s.c) ∧
    (i.opcode ≠ .emit → t.out = s.out) ∧
    (∀ k, t.prog.bit? k = s.prog.bit? k) ∧ t.maxSteps = s.maxSteps

/-- What an instruction computes depends on the registers it reads and on nothing else of the register file (the table
of 10_state.md section 2, which the spec marks as inferred). -/
def Obligations.InstructionsReadOnlyTheirSources : Prop :=
  ∀ (i : Instr) (s t s' t' : State), (∀ r ∈ readsOf i, s.read r = s'.read r) →
    s.pc = s'.pc → s.prog = s'.prog → s.out = s'.out → s.status = s'.status → s.err = s'.err →
    s.errInfo = s'.errInfo → exec i s = .next t → exec i s' = .next t' →
    t.pc = t'.pc ∧ t.out = t'.out ∧ t.status = t'.status ∧ t.err = t'.err ∧ t.errInfo = t'.errInfo ∧
    (i.wellFormed = true → ∀ r ∈ writesOf i, t.read r = t'.read r)

/-- No instruction reads `status`, `err`, `err_info`, `steps` or MAX_STEPS: with other values there it leaves the same
registers, `pc` and `out` (10_state.md section 5). -/
def Obligations.InstructionsDoNotReadRunRecord : Prop :=
  ∀ (i : Instr) (s t t' : State) (st : Status) (e : ErrCode) (info n limit : Nat),
    exec i s = .next t →
    exec i { s with status := st, err := e, errInfo := info, steps := n, maxSteps := limit } = .next t' →
    t'.a = t.a ∧ t'.b = t.b ∧ t'.c = t.c ∧ t'.pc = t.pc ∧ t'.out = t.out

/-- An instruction that completes ends with `pc + 6`, or is a taken JUMP_IF_A and ends at its literal; the only error of
phase 3 is MisalignedJump, in JUMP_IF_A only (10_state.md section 3, 40_execution_cycle.md section 5). -/
def Obligations.CompletedInstructionAdvancesPcBySixOrJumps : Prop :=
  ∀ (i : Instr) (s t : State), exec i s = .next t →
    (t.steps = s.steps + 1 ∧ t.err = s.err ∧ t.pc = s.pc + 6) ∨
    (∃ n, i = .jumpIfA n ∧ s.a ≠ 0 ∧ t.steps = s.steps + 1 ∧ t.err = s.err ∧ t.pc = n.toNat ∧
      t.pc % 6 = 0 ∧ t.pc ≤ s.progBits) ∨
    (∃ n, i = .jumpIfA n ∧ s.a ≠ 0 ∧ t.steps = s.steps ∧ t.pc = s.pc ∧ t.err = .misalignedJump) ∨
    (i.wellFormed = false ∧ t.steps = s.steps ∧ t.pc = s.pc ∧ t.err = .invalidOperand)

/-- The output is append-only along a run, and a step appends at most one value (10_state.md section 4; the length bound
is the spec's decision D15). -/
def Obligations.OutputIsAppendOnlyAlongRuns : Prop :=
  ∀ (n : Nat) (s : State), ∃ vs, (runFor n s).out = s.out ++ vs ∧ vs.length + s.steps ≤ (runFor n s).steps

/-! ### Steps, errors and run state -/

/-- The step equals the normative step function of 40_execution_cycle.md section 8, transcribed on numbers, from every
state. That section requires `Running`: that a step request in the other three statuses answers the unchanged state as a
next state is the model's reading (log 8, DEDUCED). -/
def Obligations.StepMatchesTheNormativeStepFunction : Prop :=
  ∀ s : State, step s = .next (refStep s)

/-- The halt test (40_execution_cycle.md R77): after a completed step `pc <= PROG_BITS`, and the run is Halted exactly
when `pc = PROG_BITS`; it got there by falling off the end, or by a taken `JUMP_IF_A 6` in a program of 6 bits; and
the same test at run start. -/
def Obligations.HaltExactlyAtProgramEnd : Prop :=
  (∀ s t : State, s.status = .running → step s = .next t → t.status ≠ .faulted →
    t.pc ≤ t.progBits ∧ (t.status = if t.pc = t.progBits then .halted else .running) ∧
    (t.status = .halted → t.pc = s.pc + 6 ∨
      (decodeInstruction s.prog s.pc = .ok (.jumpIfA 6) ∧ s.a ≠ 0 ∧ s.progBits = 6))) ∧
  (∀ (s : State) (a b c : Word),
    (init a b c s).status = (if s.progBits = 0 then .halted else .running) ∧
    (reinit a s).status = (if s.progBits = 0 then .halted else .running))

/-- Errors are precise (60_exceptions.md section 2; the spec's decision D9, log 7: a claim about a program must not rely
on it). -/
def Obligations.ErrorsArePrecise : Prop :=
  ∀ s t : State, s.status = .running → step s = .next t → t.status = .faulted →
    t = { s with status := .faulted, err := t.err, errInfo := t.errInfo } ∧
    t.err ≠ .none ∧ t.err ≠ .encodingError

/-- At most one error is raised in a step, the first of the checks that fails, each with its `err_info`; when none
fails there is no error (60_exceptions.md sections 1 and 3; order and codes are the spec's decisions D10, D11). -/
def Obligations.FirstFailingCheckDecidesTheError : Prop :=
  ∀ s t : State, s.status = .running → step s = .next t →
    (s.maxSteps ≤ s.steps →
      t = { s with status := .faulted, err := .stepLimitExceeded, errInfo := s.steps }) ∧
    (s.steps < s.maxSteps → s.pc % 6 ≠ 0 →
      t = { s with status := .faulted, err := .misaligned, errInfo := s.pc }) ∧
    (s.steps < s.maxSteps → s.pc % 6 = 0 → s.progBits < s.pc + 6 →
      t = { s with status := .faulted, err := .outOfRange, errInfo := s.pc }) ∧
    (s.steps < s.maxSteps → ∀ i, decodeInstruction s.prog s.pc = .ok i →
      (i.wellFormed = false →
        t = { s with status := .faulted, err := .invalidOperand, errInfo := s.pc }) ∧
      (∀ n, i = .jumpIfA n → s.a ≠ 0 → (n.toNat % 6 ≠ 0 ∨ s.progBits < n.toNat) →
        t = { s with status := .faulted, err := .misalignedJump, errInfo := n.toNat }) ∧
      (i.wellFormed = true →
        (∀ n, i = .jumpIfA n → s.a ≠ 0 → n.toNat % 6 = 0 ∧ n.toNat ≤ s.progBits) →
        t.status ≠ .faulted ∧ t.err = s.err))

/-- A step request outside a run changes nothing (10_state.md section 5, the spec's decision D14; that it is a next state
is the model's reading, log 8). -/
def Obligations.NoStepOutsideARun : Prop :=
  ∀ s : State, s.status ≠ .running → step s = .next s

/-- The three ways a step of a run moves the run state, with the step counter (10_state.md section 5; Idle and Faulted
are the spec's decisions D9, D13). -/
def Obligations.RunningStepHaltsContinuesOrFaults : Prop :=
  ∀ s t : State, s.status = .running → step s = .next t →
    (t.status = .halted ∧ t.steps = s.steps + 1 ∧ t.pc = s.progBits) ∨
    (t.status = .running ∧ t.steps = s.steps + 1 ∧ t.pc < s.progBits) ∨
    (t.status = .faulted ∧ t.steps = s.steps ∧ t.pc = s.pc)

/-- In a coherent state no step raises Misaligned; OutOfRange is raised only at `pc = PROG_BITS - 3` with
`PROG_BITS mod 6 = 3`, so never in a well-formed program (60_exceptions.md section 1 and 20_memory.md section 5,
inferences the spec marks as its own). -/
def Obligations.DecodeErrorsOnlyAtADanglingValue : Prop :=
  ∀ s t : State, s.Inv → s.status = .running → step s = .next t →
    t.err ≠ .misaligned ∧
    (t.err = .outOfRange → s.progBits % 6 = 3 ∧ s.pc + 3 = s.progBits) ∧
    (s.prog.wholeInstrs = true → t.err ≠ .outOfRange)

/-! ### Reset, run start and READ -/

/-- Power-on reset: every value the spec gives (10_state.md section 6, 70_reset_and_hazards.md section 1; the spec's
decision D13). A, B, C and MAX_STEPS, which it leaves open, are not claimed. -/
def Obligations.PowerOnLeavesSpecifiedValues : Prop :=
  State.reset.pc = 0 ∧ State.reset.out = [] ∧ State.reset.status = .idle ∧ State.reset.err = .none ∧
  State.reset.errInfo = 0 ∧ State.reset.steps = 0 ∧ State.reset.prog = [] ∧
  ∀ s : State, ∃ t, perform .powerOn s = .next (t, .done) ∧ t.pc = 0 ∧ t.out = [] ∧ t.status = .idle ∧
    t.err = .none ∧ t.errInfo = 0 ∧ t.steps = 0 ∧ t.prog = []

/-- INIT and REINIT in every status (70_reset_and_hazards.md section 1; clearing `steps`, `err`, `err_info` and the
freedom of status are the spec's decision D16, the halt test its decision D18). -/
def Obligations.InitAndReinitStartAFreshRun : Prop :=
  ∀ (s : State) (a b c : Word),
    perform (.init a b c) s = .next ({ s with
      a := a
      b := b
      c := c
      pc := 0
      out := []
      steps := 0
      err := .none
      errInfo := 0
      status := if s.progBits = 0 then .halted else .running }, .done) ∧
    perform (.reinit a) s = perform (.init a 0 0) s

/-- An empty program halts immediately with an empty output sequence, keeping the registers INIT gave
(95_test_vectors.md S5, 70_reset_and_hazards.md section 1; the halt test at run start is the spec's decision D18). -/
def Obligations.EmptyProgramHaltsAtOnce : Prop :=
  ∀ (s : State) (a b c : Word), s.prog = [] →
    run (init a b c s) = { s with
      a := a
      b := b
      c := c
      pc := 0
      out := []
      steps := 0
      err := .none
      errInfo := 0
      status := .halted }

/-- READ returns the readable state and changes nothing (70_reset_and_hazards.md section 2, the spec's decision D12). -/
def Obligations.ReadReturnsStateAndChangesNothing : Prop :=
  ∀ s : State, perform .read s = .next (s, .values {
    status := s.status
    err := s.err
    errInfo := s.errInfo
    out := s.out
    a := s.a
    b := s.b
    c := s.c
    pc := s.pc
    steps := s.steps })

/-! ### Whole-machine statements -/

/-- AN INVARIANT THAT EVERY STEP KEEPS, with `pc` within the program and Halted only at its end (10_state.md sections 1,
3 and 5; the range of `pc` is an inference the spec marks as its own; the step outside a run is log 8, DEDUCED). -/
def Obligations.EveryStepKeepsRunInvariant : Prop :=
  ∀ s t : State, s.RunInv → step s = .next t → t.RunInv

/-- The run invariant holds after power-on reset, and at every run start on a loaded store (10_state.md section 6). -/
def Obligations.RunInvariantHoldsAtResetAndRunStart : Prop :=
  State.reset.RunInv ∧
  ∀ (s : State) (a b c : Word), s.prog.wf = true → (init a b c s).RunInv ∧ (reinit a s).RunInv

/-- Whatever the host does keeps the coherence of the machine: power-on, LOAD, INIT, REINIT, a whole RUN, READ
(70_reset_and_hazards.md section 2; the host operations are the spec's decision D12). -/
def Obligations.EveryHostOperationKeepsInvariant : Prop :=
  ∀ (op : HostOp) (s t : State) (r : HostReply), s.Inv → perform op s = .next (t, r) → t.Inv

/-- Every run ends: within the steps left and one more, the machine is no longer Running (40_execution_cycle.md section
9, an inference the spec marks as its own). That more step requests change nothing and answer a next state is the
model's reading of 10_state.md section 5 (log 8, DEDUCED); the bound of `run` is log 17 (DEDUCED). -/
def Obligations.EveryRunEndsWithinStepLimit : Prop :=
  ∀ (s : State) (k : Nat), s.maxSteps - s.steps + 1 ≤ k →
    Sys2Proof.core.run k s = .next (run s) ∧ (run s).status ≠ .running ∧
    (run s).steps ≤ max s.steps s.maxSteps

/-- A run is a function of the initial registers, the program and MAX_STEPS: nothing of an earlier run shows
(10_state.md section 7; MAX_STEPS as a third input is the spec's resolution C13). -/
def Obligations.RunDependsOnlyOnRegistersProgramAndLimit : Prop :=
  ∀ (s s' : State) (a b c : Word), s.prog = s'.prog → s.maxSteps = s'.maxSteps →
    run (init a b c s) = run (init a b c s')

/-- The result of a run that ends within its limit, Halted or by any error but StepLimitExceeded, does not depend on the
limit (90_conflicts.md C13, the spec's own resolution). The whole end state is claimed; that an error leaves the registers
as they were is the spec's decision D9 (log 7), and the bound of `run` is log 17 (DEDUCED). -/
def Obligations.RunEndingWithinLimitDoesNotDependOnIt : Prop :=
  ∀ (s : State) (limit : Nat), s.maxSteps ≤ limit →
    ¬ ((run s).status = .faulted ∧ (run s).err = .stepLimitExceeded) →
    run (s.withMaxSteps limit) = (run s).withMaxSteps limit

/-- A program of whole instructions with no reserved combo operand and no jump literal but 0 and 6 never fails but by
the step limit: the cautious premises P2 (70_reset_and_hazards.md section 5), D7 and D8 (92_eei_decisions.md). The run
is the bounded iteration of log 17 (DEDUCED). -/
def Obligations.CautiousProgramFailsOnlyByStepLimit : Prop :=
  ∀ (s : State) (a b c : Word), s.prog.cautious = true →
    (run (init a b c s)).Succeeded ∨
    ((run (init a b c s)).status = .faulted ∧ (run (init a b c s)).err = .stepLimitExceeded)
end

