-- ==== Sys2Proof/Laws/Decode.lean ====
section
/-!
SUPPORT. Bits and numbers, LOAD's packing, the fetch, and the field maps of the decoder and the encoder.
-/

namespace Sys2Proof

/-! ### Bits and numbers -/

@[simp] theorem natBits_length (n v : Nat) : (natBits n v).length = n := by
  induction n generalizing v with
  | zero => rfl
  | succ n ih => simp [natBits, ih]

theorem bitsVal_natBits (n v : Nat) : bitsVal (natBits n v) = v % 2 ^ n := by
  induction n generalizing v with
  | zero => simp [natBits, bitsVal, Nat.mod_one]
  | succ n ih =>
    have hbit : (v % 2 == 1).toNat = v % 2 := by
      rcases Nat.mod_two_eq_zero_or_one v with h | h <;> simp [h]
    rw [natBits, bitsVal, ih, hbit, Nat.pow_succ', Nat.mod_mul]

theorem natBits_getElem? (n v j : Nat) (hj : j < n) : (natBits n v)[j]? = some (v.testBit j) := by
  induction n generalizing v j with
  | zero => omega
  | succ n ih =>
    cases j with
    | zero => simp [natBits, Nat.testBit_zero, beq_eq_decide]
    | succ j => simpa [natBits, Nat.testBit_succ] using ih (v / 2) j (by omega)

theorem bitsVal_lt (bs : List Bool) : bitsVal bs < 2 ^ bs.length := by
  induction bs with
  | nil => simp [bitsVal]
  | cons b bs ih =>
    have hb := b.toNat_le
    simp only [bitsVal, List.length_cons, Nat.pow_succ]
    omega

theorem bitsVal_append (xs ys : List Bool) :
    bitsVal (xs ++ ys) = bitsVal xs + 2 ^ xs.length * bitsVal ys := by
  induction xs with
  | nil => simp [bitsVal]
  | cons b xs ih => simp only [List.cons_append, bitsVal, ih, List.length_cons, Nat.pow_succ']; ring

/-- A window of the stream read as a number is the stream number shifted and cut (20_memory.md R34). -/
theorem bitsVal_window (m : List Bool) (off n : Nat) (h : off + n ≤ m.length) :
    bitsVal ((m.drop off).take n) = bitsVal m / 2 ^ off % 2 ^ n := by
  have hm : m = m.take off ++ ((m.drop off).take n ++ (m.drop off).drop n) := by simp
  have hpre : (m.take off).length = off := by simp; omega
  have hwin : ((m.drop off).take n).length = n := by simp; omega
  have hlow : bitsVal (m.take off) < 2 ^ off := by
    have := bitsVal_lt (m.take off); rwa [hpre] at this
  have hval : bitsVal m = bitsVal (m.take off) + 2 ^ off *
      (bitsVal ((m.drop off).take n) + 2 ^ n * bitsVal ((m.drop off).drop n)) := by
    conv_lhs => rw [hm]
    rw [bitsVal_append, bitsVal_append, hpre, hwin]
  have hbound : bitsVal ((m.drop off).take n) < 2 ^ n := by
    have := bitsVal_lt ((m.drop off).take n); rwa [hwin] at this
  rw [hval, Nat.add_mul_div_left _ _ (Nat.two_pow_pos off), Nat.div_eq_of_lt hlow, Nat.zero_add,
    Nat.add_mul_mod_self_left, Nat.mod_eq_of_lt hbound]

/-! ### LOAD's packing -/

theorem firstBadValue_eq_none (vs : List Nat) : firstBadValue vs = none ↔ ∀ v ∈ vs, v ≤ 7 := by
  induction vs with
  | nil => simp [firstBadValue]
  | cons v vs ih =>
    by_cases hv : v ≤ 7 <;> simp [firstBadValue, hv, ih]

@[simp] theorem packBits_length (vs : List Nat) : (packBits vs).length = 3 * vs.length := by
  induction vs with
  | nil => rfl
  | cons v vs ih => simp [packBits, ih]; omega

/-- The store from value `k` on is the packing of the list from value `k` on. -/
theorem packBits_drop (vs : List Nat) (k : Nat) : (packBits vs).drop (3 * k) = packBits (vs.drop k) := by
  induction k generalizing vs with
  | zero => simp
  | succ k ih =>
    cases vs with
    | nil => simp [packBits]
    | cons v vs =>
      rw [List.drop_succ_cons, ← ih, packBits, Nat.mul_succ, Nat.add_comm, ← List.drop_drop]
      simp

/-- Bit `j` of value `k` (20_memory.md R32). -/
theorem packBits_getElem? (vs : List Nat) (k : Nat) (h : k < vs.length) (j : Nat) (hj : j < 3) :
    (packBits vs)[3 * k + j]? = some (vs[k].testBit j) := by
  have hshift : (packBits vs)[3 * k + j]? = ((packBits vs).drop (3 * k))[j]? := by simp
  rw [hshift, packBits_drop, List.drop_eq_getElem_cons h, packBits,
    List.getElem?_append_left (by simpa using hj), natBits_getElem? _ _ _ hj]

/-- What LOAD's packing can answer (20_memory.md R33). -/
theorem packValues_ok {vs : List Nat} {m : Memory} (h : packValues vs = .ok m) :
    (∀ v ∈ vs, v ≤ 7) ∧ m = packBits vs := by
  unfold packValues at h
  split at h
  · cases h
  · next hb => exact ⟨(firstBadValue_eq_none vs).1 hb, by cases h; rfl⟩

theorem packValues_of_inRange {vs : List Nat} (h : ∀ v ∈ vs, v ≤ 7) :
    packValues vs = .ok (packBits vs) := by
  simp [packValues, (firstBadValue_eq_none vs).2 h]

/-- Packing a list makes a store of `3 * n` bits (00_scope.md R5). -/
theorem packValues_wf {vs : List Nat} {m : Memory} (h : packValues vs = .ok m) : m.wf = true := by
  obtain ⟨-, rfl⟩ := packValues_ok h
  simp [Memory.wf]

/-! ### The field maps -/

@[simp] theorem Opcode.ofDigit_digit (op : Opcode) : Opcode.ofDigit op.digit = op := by
  cases op <;> rfl

@[simp] theorem Opcode.digit_ofDigit (d : Digit) : (Opcode.ofDigit d).digit = d := by
  revert d; decide

@[simp] theorem Combo.ofDigit_digit (src : Combo) : Combo.ofDigit src.digit = src := by
  cases src with
  | lit v => revert v; decide
  | reg r => cases r <;> rfl
  | reserved => rfl

@[simp] theorem Combo.digit_ofDigit (d : Digit) : (Combo.ofDigit d).digit = d := by
  revert d; decide

@[simp] theorem Instr.ofFields_opcode (op : Opcode) (d : Digit) : (Instr.ofFields op d).opcode = op := by
  cases op <;> rfl

@[simp] theorem Instr.ofFields_operand (op : Opcode) (d : Digit) : (Instr.ofFields op d).operand = d := by
  cases op <;> simp [Instr.ofFields, Instr.operand]

@[simp] theorem decode_opcode_digit (w : InstrWord) : (decode w).opcode.digit = w.extractLsb' 0 3 := by
  simp [decode]

@[simp] theorem decode_operand (w : InstrWord) : (decode w).operand = w.extractLsb' 3 3 := by
  simp [decode]

/-! ### The fetch -/

/-- What the fetch can answer (20_memory.md R34). -/
theorem decodeInstruction_cases (m : Memory) (off : Nat) :
    (off % 6 ≠ 0 ∧ decodeInstruction m off = .error (.misaligned off)) ∨
    (off % 6 = 0 ∧ m.length < off + 6 ∧ decodeInstruction m off = .error (.outOfRange off)) ∨
    (off % 6 = 0 ∧ off + 6 ≤ m.length ∧
      decodeInstruction m off = .ok (decode (BitVec.ofNat 6 (bitsVal ((m.drop off).take 6))))) := by
  by_cases ha : off % 6 = 0
  · by_cases hr : off + 6 ≤ m.length
    · exact .inr (.inr ⟨ha, hr, by simp [decodeInstruction, Memory.read?, Config.ilen, ha, hr]⟩)
    · exact .inr (.inl ⟨ha, by omega, by simp [decodeInstruction, Memory.read?, Config.ilen, ha, hr]⟩)
  · exact .inl ⟨ha, by simp [decodeInstruction, Config.ilen, ha]⟩

/-- A fetch that answers an instruction found it whole, at a multiple of 6. -/
theorem decodeInstruction_ok {m : Memory} {off : Nat} {i : Instr} (h : decodeInstruction m off = .ok i) :
    off % 6 = 0 ∧ off + 6 ≤ m.length ∧ i = decode (BitVec.ofNat 6 (bitsVal ((m.drop off).take 6))) := by
  rcases decodeInstruction_cases m off with ⟨_, h'⟩ | ⟨_, _, h'⟩ | ⟨ha, hr, h'⟩
  · rw [h'] at h; cases h
  · rw [h'] at h; cases h
  · rw [h'] at h; cases h; exact ⟨ha, hr, rfl⟩

end Sys2Proof
end

