-- ==== Sys2Proof/Laws/State.lean ====
section
/-!
SUPPORT. One lemma for each field and each update of the state, so that no proof unfolds an update.
-/

namespace Sys2Proof.Machine

/-! ### Reading a register after a register write -/

@[simp] theorem State.read_A (s : State) : s.read .A = s.a := rfl
@[simp] theorem State.read_B (s : State) : s.read .B = s.b := rfl
@[simp] theorem State.read_C (s : State) : s.read .C = s.c := rfl

/-! ### Register write -/

@[simp] theorem State.write_A_a (s : State) (v : Word) : (s.write .A v).a = v := rfl
@[simp] theorem State.write_A_b (s : State) (v : Word) : (s.write .A v).b = s.b := rfl
@[simp] theorem State.write_A_c (s : State) (v : Word) : (s.write .A v).c = s.c := rfl
@[simp] theorem State.write_B_a (s : State) (v : Word) : (s.write .B v).a = s.a := rfl
@[simp] theorem State.write_B_b (s : State) (v : Word) : (s.write .B v).b = v := rfl
@[simp] theorem State.write_B_c (s : State) (v : Word) : (s.write .B v).c = s.c := rfl
@[simp] theorem State.write_C_a (s : State) (v : Word) : (s.write .C v).a = s.a := rfl
@[simp] theorem State.write_C_b (s : State) (v : Word) : (s.write .C v).b = s.b := rfl
@[simp] theorem State.write_C_c (s : State) (v : Word) : (s.write .C v).c = v := rfl
@[simp] theorem State.write_pc (s : State) (r : Reg) (v : Word) : (s.write r v).pc = s.pc := by cases r <;> rfl
@[simp] theorem State.write_out (s : State) (r : Reg) (v : Word) : (s.write r v).out = s.out := by cases r <;> rfl
@[simp] theorem State.write_status (s : State) (r : Reg) (v : Word) : (s.write r v).status = s.status := by cases r <;> rfl
@[simp] theorem State.write_err (s : State) (r : Reg) (v : Word) : (s.write r v).err = s.err := by cases r <;> rfl
@[simp] theorem State.write_errInfo (s : State) (r : Reg) (v : Word) : (s.write r v).errInfo = s.errInfo := by cases r <;> rfl
@[simp] theorem State.write_steps (s : State) (r : Reg) (v : Word) : (s.write r v).steps = s.steps := by cases r <;> rfl
@[simp] theorem State.write_prog (s : State) (r : Reg) (v : Word) : (s.write r v).prog = s.prog := by cases r <;> rfl
@[simp] theorem State.write_maxSteps (s : State) (r : Reg) (v : Word) : (s.write r v).maxSteps = s.maxSteps := by cases r <;> rfl
@[simp] theorem State.write_progBits (s : State) (r : Reg) (v : Word) : (s.write r v).progBits = s.progBits := by cases r <;> rfl

/-! ### Output -/

@[simp] theorem State.append_a (s : State) (v : Digit) : (s.append v).a = s.a := rfl
@[simp] theorem State.append_b (s : State) (v : Digit) : (s.append v).b = s.b := rfl
@[simp] theorem State.append_c (s : State) (v : Digit) : (s.append v).c = s.c := rfl
@[simp] theorem State.append_pc (s : State) (v : Digit) : (s.append v).pc = s.pc := rfl
@[simp] theorem State.append_out (s : State) (v : Digit) : (s.append v).out = s.out ++ [v] := rfl
@[simp] theorem State.append_status (s : State) (v : Digit) : (s.append v).status = s.status := rfl
@[simp] theorem State.append_err (s : State) (v : Digit) : (s.append v).err = s.err := rfl
@[simp] theorem State.append_errInfo (s : State) (v : Digit) : (s.append v).errInfo = s.errInfo := rfl
@[simp] theorem State.append_steps (s : State) (v : Digit) : (s.append v).steps = s.steps := rfl
@[simp] theorem State.append_prog (s : State) (v : Digit) : (s.append v).prog = s.prog := rfl
@[simp] theorem State.append_maxSteps (s : State) (v : Digit) : (s.append v).maxSteps = s.maxSteps := rfl
@[simp] theorem State.append_progBits (s : State) (v : Digit) : (s.append v).progBits = s.progBits := rfl

/-! ### Commit -/

@[simp] theorem State.commit_a (s : State) (n : Nat) : (s.commit n).a = s.a := rfl
@[simp] theorem State.commit_b (s : State) (n : Nat) : (s.commit n).b = s.b := rfl
@[simp] theorem State.commit_c (s : State) (n : Nat) : (s.commit n).c = s.c := rfl
@[simp] theorem State.commit_pc (s : State) (n : Nat) : (s.commit n).pc = n := rfl
@[simp] theorem State.commit_out (s : State) (n : Nat) : (s.commit n).out = s.out := rfl
@[simp] theorem State.commit_status (s : State) (n : Nat) : (s.commit n).status = if n = s.progBits then .halted else s.status := rfl
@[simp] theorem State.commit_err (s : State) (n : Nat) : (s.commit n).err = s.err := rfl
@[simp] theorem State.commit_errInfo (s : State) (n : Nat) : (s.commit n).errInfo = s.errInfo := rfl
@[simp] theorem State.commit_steps (s : State) (n : Nat) : (s.commit n).steps = s.steps + 1 := rfl
@[simp] theorem State.commit_prog (s : State) (n : Nat) : (s.commit n).prog = s.prog := rfl
@[simp] theorem State.commit_maxSteps (s : State) (n : Nat) : (s.commit n).maxSteps = s.maxSteps := rfl
@[simp] theorem State.commit_progBits (s : State) (n : Nat) : (s.commit n).progBits = s.progBits := rfl

/-! ### Sequential commit -/

@[simp] theorem State.advance_a (s : State) : (s.advance).a = s.a := rfl
@[simp] theorem State.advance_b (s : State) : (s.advance).b = s.b := rfl
@[simp] theorem State.advance_c (s : State) : (s.advance).c = s.c := rfl
@[simp] theorem State.advance_pc (s : State) : (s.advance).pc = s.pc + 6 := rfl
@[simp] theorem State.advance_out (s : State) : (s.advance).out = s.out := rfl
@[simp] theorem State.advance_status (s : State) : (s.advance).status = if s.pc + 6 = s.progBits then .halted else s.status := rfl
@[simp] theorem State.advance_err (s : State) : (s.advance).err = s.err := rfl
@[simp] theorem State.advance_errInfo (s : State) : (s.advance).errInfo = s.errInfo := rfl
@[simp] theorem State.advance_steps (s : State) : (s.advance).steps = s.steps + 1 := rfl
@[simp] theorem State.advance_prog (s : State) : (s.advance).prog = s.prog := rfl
@[simp] theorem State.advance_maxSteps (s : State) : (s.advance).maxSteps = s.maxSteps := rfl
@[simp] theorem State.advance_progBits (s : State) : (s.advance).progBits = s.progBits := rfl

/-! ### Error entry -/

@[simp] theorem State.raise_a (s : State) (e : ErrCode) (info : Nat) : (s.raise e info).a = s.a := rfl
@[simp] theorem State.raise_b (s : State) (e : ErrCode) (info : Nat) : (s.raise e info).b = s.b := rfl
@[simp] theorem State.raise_c (s : State) (e : ErrCode) (info : Nat) : (s.raise e info).c = s.c := rfl
@[simp] theorem State.raise_pc (s : State) (e : ErrCode) (info : Nat) : (s.raise e info).pc = s.pc := rfl
@[simp] theorem State.raise_out (s : State) (e : ErrCode) (info : Nat) : (s.raise e info).out = s.out := rfl
@[simp] theorem State.raise_status (s : State) (e : ErrCode) (info : Nat) : (s.raise e info).status = .faulted := rfl
@[simp] theorem State.raise_err (s : State) (e : ErrCode) (info : Nat) : (s.raise e info).err = e := rfl
@[simp] theorem State.raise_errInfo (s : State) (e : ErrCode) (info : Nat) : (s.raise e info).errInfo = info := rfl
@[simp] theorem State.raise_steps (s : State) (e : ErrCode) (info : Nat) : (s.raise e info).steps = s.steps := rfl
@[simp] theorem State.raise_prog (s : State) (e : ErrCode) (info : Nat) : (s.raise e info).prog = s.prog := rfl
@[simp] theorem State.raise_maxSteps (s : State) (e : ErrCode) (info : Nat) : (s.raise e info).maxSteps = s.maxSteps := rfl
@[simp] theorem State.raise_progBits (s : State) (e : ErrCode) (info : Nat) : (s.raise e info).progBits = s.progBits := rfl

/-! ### Start of a run -/

@[simp] theorem State.startRun_a (s : State) (x y z : Word) : (s.startRun x y z).a = x := rfl
@[simp] theorem State.startRun_b (s : State) (x y z : Word) : (s.startRun x y z).b = y := rfl
@[simp] theorem State.startRun_c (s : State) (x y z : Word) : (s.startRun x y z).c = z := rfl
@[simp] theorem State.startRun_pc (s : State) (x y z : Word) : (s.startRun x y z).pc = 0 := rfl
@[simp] theorem State.startRun_out (s : State) (x y z : Word) : (s.startRun x y z).out = [] := rfl
@[simp] theorem State.startRun_status (s : State) (x y z : Word) : (s.startRun x y z).status = if s.progBits = 0 then .halted else .running := rfl
@[simp] theorem State.startRun_err (s : State) (x y z : Word) : (s.startRun x y z).err = .none := rfl
@[simp] theorem State.startRun_errInfo (s : State) (x y z : Word) : (s.startRun x y z).errInfo = 0 := rfl
@[simp] theorem State.startRun_steps (s : State) (x y z : Word) : (s.startRun x y z).steps = 0 := rfl
@[simp] theorem State.startRun_prog (s : State) (x y z : Word) : (s.startRun x y z).prog = s.prog := rfl
@[simp] theorem State.startRun_maxSteps (s : State) (x y z : Word) : (s.startRun x y z).maxSteps = s.maxSteps := rfl
@[simp] theorem State.startRun_progBits (s : State) (x y z : Word) : (s.startRun x y z).progBits = s.progBits := rfl

/-! ### The parameter MAX_STEPS -/

@[simp] theorem State.withMaxSteps_a (s : State) (n : Nat) : (s.withMaxSteps n).a = s.a := rfl
@[simp] theorem State.withMaxSteps_b (s : State) (n : Nat) : (s.withMaxSteps n).b = s.b := rfl
@[simp] theorem State.withMaxSteps_c (s : State) (n : Nat) : (s.withMaxSteps n).c = s.c := rfl
@[simp] theorem State.withMaxSteps_pc (s : State) (n : Nat) : (s.withMaxSteps n).pc = s.pc := rfl
@[simp] theorem State.withMaxSteps_out (s : State) (n : Nat) : (s.withMaxSteps n).out = s.out := rfl
@[simp] theorem State.withMaxSteps_status (s : State) (n : Nat) : (s.withMaxSteps n).status = s.status := rfl
@[simp] theorem State.withMaxSteps_err (s : State) (n : Nat) : (s.withMaxSteps n).err = s.err := rfl
@[simp] theorem State.withMaxSteps_errInfo (s : State) (n : Nat) : (s.withMaxSteps n).errInfo = s.errInfo := rfl
@[simp] theorem State.withMaxSteps_steps (s : State) (n : Nat) : (s.withMaxSteps n).steps = s.steps := rfl
@[simp] theorem State.withMaxSteps_prog (s : State) (n : Nat) : (s.withMaxSteps n).prog = s.prog := rfl
@[simp] theorem State.withMaxSteps_maxSteps (s : State) (n : Nat) : (s.withMaxSteps n).maxSteps = n := rfl
@[simp] theorem State.withMaxSteps_progBits (s : State) (n : Nat) : (s.withMaxSteps n).progBits = s.progBits := rfl

end Sys2Proof.Machine
end

