-- ==== Sys2Proof/Laws/Ops.lean ====
section
/-!
SUPPORT. What the shared operations can do: arithmetic, operand resolution, memory, and the inversion of an
instruction and of a step.
-/

namespace Sys2Proof.Machine

/-! ### Arithmetic -/

theorem shr_toNat (v n : Word) : (shr v n).toNat = v.toNat / 2 ^ n.toNat := by
  unfold shr
  split
  · simp [Nat.shiftRight_eq_div_pow]
  · have hv : v.toNat < 2 ^ n.toNat :=
      lt_of_lt_of_le v.isLt (Nat.pow_le_pow_right (by norm_num) (by omega))
    simp [Nat.div_eq_of_lt hv]

@[simp] theorem mod8_toNat (v : Word) : (mod8 v).toNat = v.toNat % 8 := by
  simp [mod8]

@[simp] theorem zext_toNat (d : Digit) : (zext d).toNat = d.toNat := by
  have := d.isLt
  simp only [zext, BitVec.toNat_setWidth]
  omega

@[simp] theorem literalValue_toNat (d : Digit) : (literalValue d).toNat = d.toNat := zext_toNat d

/-! ### Operand resolution -/

@[simp] theorem comboValue_lit (v : BitVec 2) (s : State) : comboValue (.lit v) s = some (v.setWidth 64) := rfl
@[simp] theorem comboValue_reg (r : Reg) (s : State) : comboValue (.reg r) s = some (s.read r) := rfl
@[simp] theorem comboValue_reserved (s : State) : comboValue .reserved s = none := rfl

theorem withCombo_of_some {src : Combo} {s : State} {val : Word} (h : comboValue src s = some val)
    (k : Word → State) : withCombo src s k = k val := by
  simp [withCombo, h]

@[simp] theorem withCombo_reserved (s : State) (k : Word → State) :
    withCombo .reserved s k = s.raise .invalidOperand s.pc := rfl

/-- Operand resolution goes on with a value or raises `InvalidOperand`, for the reserved operand only. -/
theorem withCombo_cases (src : Combo) (s : State) (k : Word → State) :
    (src.wellFormed = true ∧ ∃ val, comboValue src s = some val ∧ withCombo src s k = k val) ∨
    (src = .reserved ∧ withCombo src s k = s.raise .invalidOperand s.pc) := by
  cases src with
  | lit v => exact .inl ⟨rfl, _, rfl, rfl⟩
  | reg r => exact .inl ⟨rfl, _, rfl, rfl⟩
  | reserved => exact .inr ⟨rfl, rfl⟩

/-! ### The jump's condition and check -/

theorem jumpTaken_iff (s : State) : jumpTaken s = true ↔ s.a ≠ 0 := by
  simp [jumpTaken]

theorem jumpTargetValid_iff (target : Nat) (s : State) :
    jumpTargetValid target s = true ↔ target % 6 = 0 ∧ target ≤ s.progBits := by
  simp [jumpTargetValid, Config.ilen]

/-! ### The canonical form of the store -/

theorem reset_prog_wf : State.reset.prog.wf = true := rfl

/-- Laying whole instructions at a multiple of 3 keeps `PROG_BITS = 3 * n`. -/
theorem placeBits_wf {m : Memory} {addr : Nat} {bits : Memory} (hm : m.wf = true) (ha : addr % 3 = 0)
    (hb : bits.wf = true) : (placeBits m addr bits).wf = true := by
  simp only [Memory.wf, beq_iff_eq, placeBits, List.length_append, List.length_take, List.length_drop,
    List.length_replicate] at *
  omega

theorem load_wf {vs : List Nat} {s t : State} {r : HostReply} (hs : s.prog.wf = true)
    (h : load vs s = .next (t, r)) : t.prog.wf = true := by
  unfold load at h
  split at h
  · cases h
  · split at h
    · cases h; exact hs
    · next hp => cases h; exact packValues_wf hp

/-! ### The inversion of an instruction -/

/-- How an instruction can end, control and bookkeeping: an error of its own, or a commit of a state `u` that
differs from `s` in a register or in one appended value only. -/
theorem exec_cases {i : Instr} {s t : State} (h : exec i s = .next t) :
    (i.wellFormed = false ∧ t = s.raise .invalidOperand s.pc) ∨
    (∃ lit, i = .jumpIfA lit ∧ jumpTaken s = true ∧ jumpTargetValid lit.toNat s = false ∧
      t = s.raise .misalignedJump lit.toNat) ∨
    (∃ lit, i = .jumpIfA lit ∧ jumpTaken s = true ∧ jumpTargetValid lit.toNat s = true ∧
      t = s.commit lit.toNat) ∨
    (i.wellFormed = true ∧ (∃ lit, i = .jumpIfA lit) ∧ jumpTaken s = false ∧ t = s.advance) ∨
    (i.wellFormed = true ∧ (∀ lit, i ≠ .jumpIfA lit) ∧ ∃ r v, t = (s.write r v).advance) ∨
    (i.wellFormed = true ∧ (∀ lit, i ≠ .jumpIfA lit) ∧ ∃ v, t = (s.append v).advance) := by
  cases i with
  | divA src | divB src | divC src | modB src =>
    simp only [exec, execDivA, execDivB, execDivC, execModB, Host.Outcome.next.injEq] at h
    subst h
    rcases withCombo_cases src s _ with ⟨hw, val, -, he⟩ | ⟨rfl, he⟩
    · exact .inr (.inr (.inr (.inr (.inl ⟨hw, by simp, _, _, he⟩))))
    · exact .inl ⟨rfl, he⟩
  | emit src =>
    simp only [exec, execEmit, Host.Outcome.next.injEq] at h
    subst h
    rcases withCombo_cases src s _ with ⟨hw, val, -, he⟩ | ⟨rfl, he⟩
    · exact .inr (.inr (.inr (.inr (.inr ⟨hw, by simp, _, he⟩))))
    · exact .inl ⟨rfl, he⟩
  | xorBLit lit | xorBC lit =>
    simp only [exec, execXorBLit, execXorBC, Host.Outcome.next.injEq] at h
    exact .inr (.inr (.inr (.inr (.inl ⟨rfl, by simp, _, _, h.symm⟩))))
  | jumpIfA lit =>
    simp only [exec, execJumpIfA, Host.Outcome.next.injEq, literalValue_toNat] at h
    subst h
    by_cases ht : jumpTaken s
    · by_cases hv : jumpTargetValid lit.toNat s
      · exact .inr (.inr (.inl ⟨lit, rfl, ht, hv, by simp [ht, hv]⟩))
      · exact .inr (.inl ⟨lit, rfl, ht, by simpa using hv, by simp [ht, hv]⟩)
    · exact .inr (.inr (.inr (.inl ⟨rfl, ⟨lit, rfl⟩, by simpa using ht, by simp [ht]⟩)))

/-- Every instruction answers a next state. -/
theorem exec_isNext (i : Instr) (s : State) : ∃ t, exec i s = .next t := by
  cases i <;> exact ⟨_, rfl⟩

/-! ### The inversion of a step -/

/-- A step request outside a run changes nothing (10_state.md R17). -/
theorem step_of_not_running {s : State} (h : s.status ≠ .running) : step s = .next s := by
  unfold step
  split <;> first | rfl | contradiction

/-- How a step of a run goes on: the step limit, a failed fetch, or the instruction at `pc`. -/
theorem step_running_cases {s : State} (h : s.status = .running) :
    (s.maxSteps ≤ s.steps ∧ step s = .next (s.raise .stepLimitExceeded s.steps)) ∨
    (s.steps < s.maxSteps ∧ s.pc % 6 ≠ 0 ∧ step s = .next (s.raise .misaligned s.pc)) ∨
    (s.steps < s.maxSteps ∧ s.pc % 6 = 0 ∧ s.progBits < s.pc + 6 ∧
      step s = .next (s.raise .outOfRange s.pc)) ∨
    (s.steps < s.maxSteps ∧ s.pc % 6 = 0 ∧ s.pc + 6 ≤ s.progBits ∧
      ∃ i, decodeInstruction s.prog s.pc = .ok i ∧ step s = exec i s) := by
  by_cases hl : s.maxSteps ≤ s.steps
  · exact .inl ⟨hl, by simp [step, h, State.limitReached, hl]⟩
  · have hlt : s.steps < s.maxSteps := by omega
    have hstep : ∀ r, decodeInstruction s.prog s.pc = r → step s = (match r with
        | .error e => .next (s.raiseDecode e)
        | .ok i => exec i s) := by
      intro r hr
      cases r <;> simp [step, h, State.limitReached, hl, State.fetch, hr]
    rcases decodeInstruction_cases s.prog s.pc with ⟨ha, hd⟩ | ⟨ha, hr, hd⟩ | ⟨ha, hr, hd⟩
    · exact .inr (.inl ⟨hlt, ha, hstep _ hd⟩)
    · exact .inr (.inr (.inl ⟨hlt, ha, hr, hstep _ hd⟩))
    · exact .inr (.inr (.inr ⟨hlt, ha, hr, _, hd, hstep _ hd⟩))

/-- Every step answers a next state, the one `stepState` names. -/
theorem step_eq_stepState (s : State) : step s = .next (stepState s) := by
  have hnext : ∃ t, step s = .next t := by
    by_cases hs : s.status = .running
    · rcases step_running_cases hs with ⟨-, h⟩ | ⟨-, -, h⟩ | ⟨-, -, -, h⟩ | ⟨-, -, -, i, -, h⟩
      · exact ⟨_, h⟩
      · exact ⟨_, h⟩
      · exact ⟨_, h⟩
      · obtain ⟨t, ht⟩ := exec_isNext i s
        exact ⟨t, h.trans ht⟩
    · exact ⟨s, step_of_not_running hs⟩
  obtain ⟨t, ht⟩ := hnext
  simp [stepState, ht]

/-- A run that has ended stays as it is. -/
theorem runFor_of_not_running (n : Nat) {s : State} (h : s.status ≠ .running) : runFor n s = s := by
  cases n <;> simp [runFor, h]

/-- How a step of a run ends: an error with its fetch conditions, or the commit of a valid new `pc` on a state `u`
that differs from `s` in registers and in at most one appended value. -/
theorem step_running_ends {s t : State} (h : s.status = .running) (hs : step s = .next t) :
    (∃ e info, t = s.raise e info ∧ e ≠ .none ∧ e ≠ .encodingError ∧
      (e = .misaligned → s.pc % 6 ≠ 0) ∧ (e = .outOfRange → s.pc % 6 = 0 ∧ s.progBits < s.pc + 6)) ∨
    (∃ u n, t = State.commit u n ∧ s.steps < s.maxSteps ∧ n % 6 = 0 ∧ n ≤ s.progBits ∧
      u.status = .running ∧ u.err = s.err ∧ u.errInfo = s.errInfo ∧ u.steps = s.steps ∧
      u.prog = s.prog ∧ u.progBits = s.progBits ∧ u.maxSteps = s.maxSteps ∧
      (u.out = s.out ∨ ∃ v, u.out = s.out ++ [v])) := by
  rcases step_running_cases h with ⟨-, h'⟩ | ⟨-, hp, h'⟩ | ⟨-, hp, hr, h'⟩ | ⟨hl, hp, hr, i, -, h'⟩
  · cases h'.symm.trans hs; exact .inl ⟨_, _, rfl, by simp⟩
  · cases h'.symm.trans hs; exact .inl ⟨_, _, rfl, by simp [hp]⟩
  · cases h'.symm.trans hs; exact .inl ⟨_, _, rfl, by simp [hp, hr]⟩
  · have hn : (s.pc + 6) % 6 = 0 := by omega
    rcases exec_cases (h'.symm.trans hs) with ⟨-, rfl⟩ | ⟨n, -, -, -, rfl⟩ | ⟨n, -, -, hv, rfl⟩ |
      ⟨-, -, -, rfl⟩ | ⟨-, -, r, v, rfl⟩ | ⟨-, -, v, rfl⟩
    · exact .inl ⟨_, _, rfl, by simp⟩
    · exact .inl ⟨_, _, rfl, by simp⟩
    · obtain ⟨ha, hb⟩ := (jumpTargetValid_iff _ _).1 hv
      exact .inr ⟨s, _, rfl, hl, ha, hb, by simp [h]⟩
    · exact .inr ⟨s, s.pc + 6, rfl, hl, hn, hr, by simp [h]⟩
    · exact .inr ⟨s.write r v, s.pc + 6, by simp [State.advance, Config.ilen], hl, hn, hr, by simp [h]⟩
    · exact .inr ⟨s.append v, s.pc + 6, rfl, hl, hn, hr, by simp [h]⟩

end Sys2Proof.Machine
end

