-- ==== Sys2Proof/Laws/PerInstr.lean ====
section
/-!
SUPPORT. The family of statements made per instruction: `RoundTrip`, about the word of an instruction.
-/

namespace Sys2Proof.Laws.RoundTrip

/-- The word of an instruction carries the opcode in `w[2:0]` and the operand in `w[5:3]` (30_encoding.md R50), and
decodes to the instruction. -/
def Statement (i : Instr) : Prop :=
  (encode i).extractLsb' 0 3 = i.opcode.digit ∧ (encode i).extractLsb' 3 3 = i.operand ∧ decode (encode i) = i

/-- The fields of a word built from an opcode field and an operand field. -/
theorem append_fields (operand opcode : Digit) :
    (operand ++ opcode : InstrWord).extractLsb' 0 3 = opcode ∧
    (operand ++ opcode : InstrWord).extractLsb' 3 3 = operand := by
  revert operand opcode; decide

theorem of_ofFields {i : Instr} (h : Instr.ofFields i.opcode i.operand = i) : Statement i := by
  obtain ⟨hop, hnd⟩ := append_fields i.operand i.opcode.digit
  refine ⟨hop, hnd, ?_⟩
  simp only [decode, encode] at *
  rw [hop, hnd, Opcode.ofDigit_digit, h]

theorem divA (src : Combo) : Statement (.divA src) := of_ofFields (by simp [Instr.ofFields, Instr.opcode, Instr.operand])
theorem xorBLit (lit : Digit) : Statement (.xorBLit lit) := of_ofFields rfl
theorem modB (src : Combo) : Statement (.modB src) := of_ofFields (by simp [Instr.ofFields, Instr.opcode, Instr.operand])
theorem jumpIfA (lit : Digit) : Statement (.jumpIfA lit) := of_ofFields rfl
theorem xorBC (ign : Digit) : Statement (.xorBC ign) := of_ofFields rfl
theorem emit (src : Combo) : Statement (.emit src) := of_ofFields (by simp [Instr.ofFields, Instr.opcode, Instr.operand])
theorem divB (src : Combo) : Statement (.divB src) := of_ofFields (by simp [Instr.ofFields, Instr.opcode, Instr.operand])
theorem divC (src : Combo) : Statement (.divC src) := of_ofFields (by simp [Instr.ofFields, Instr.opcode, Instr.operand])

end Sys2Proof.Laws.RoundTrip
end

