-- ==== Sys2Proof/Tests/Slice0.lean ====
section
/-!
SUPPORT. The model's own tests: expected results from the words and vectors of 95_test_vectors.md (named beside each)
and from the encoding rules, and a witness for every statement that has hypotheses.
-/

open Sys2Proof Sys2Proof.Machine

namespace Sys2Proof.Tests

/-- A machine with a program loaded, a step limit and a run started. -/
def started (vs : List Nat) (limit : Nat) (a b c : Word) : State :=
  init a b c { State.reset with prog := packBits vs, maxSteps := limit }

/-- The largest register value, `M` of 95_test_vectors.md. -/
def allOnes : Word := 0xFFFFFFFFFFFFFFFF#64

/-! ### The well-formedness checks refuse an ill-formed term -/

theorem test_reserved_operand_refused : Combo.wellFormed .reserved = false := by decide
theorem test_illegal_words_refused :
    [56#6, 58#6, 61#6, 62#6, 63#6].any (fun w => (decode w).wellFormed) = false := by decide
theorem test_bad_jump_literals_refused :
    [1#3, 2#3, 3#3, 4#3, 5#3, 7#3].any jumpLiteralValid = false ∧ Instr.cautious (.jumpIfA 3) = false := by decide
theorem test_value_above_seven_refused : valuesInRange [1, 8] = false ∧ valuesWellFormed [1, 8] = false := by decide
theorem test_odd_list_refused : valuesPaired [5, 1, 3] = false ∧ valuesWellFormed [5, 1, 3] = false := by decide
theorem test_store_not_in_threes_refused : Memory.wf [true] = false := by decide
theorem test_dangling_value_refused : Memory.wholeInstrs (packBits [5, 1, 3]) = false := by decide
theorem test_careless_program_refused : Memory.cautious (packBits [5, 7]) = false := by decide
theorem test_well_formed_accepted :
    (decode 37#6).wellFormed = true ∧ valuesWellFormed [5, 4, 0, 1, 3, 0] = true ∧
    Memory.cautious (packBits [5, 4, 0, 1, 3, 0]) = true := by decide

/-! ### Decoding, from words written out bit by bit (30_encoding.md R50, R56) -/

theorem test_decode_divA : decode 0b010000#6 = .divA (.lit 2) ∧ decode 0b110000#6 = .divA (.reg .C) := by decide
theorem test_decode_xorBLit : decode 0b111001#6 = .xorBLit 7 := by decide
theorem test_decode_modB : decode 0b101010#6 = .modB (.reg .B) ∧ decode 0b011010#6 = .modB (.lit 3) := by decide
theorem test_decode_jumpIfA : decode 0b110011#6 = .jumpIfA 6 := by decide
theorem test_decode_xorBC : decode 0b011100#6 = .xorBC 3 := by decide
theorem test_decode_emit : decode 0b110101#6 = .emit (.reg .C) := by decide
theorem test_decode_divB : decode 0b100110#6 = .divB (.reg .A) ∧ decode 0b111110#6 = .divB .reserved := by decide
theorem test_decode_divC : decode 0b110111#6 = .divC (.reg .C) := by decide

/-- The table words of opcode_table.json, with operand bits 0. -/
theorem test_table_words :
    (List.range 8).map (decodeTableWord 8) = [some (.divA (.lit 0)), some (.xorBLit 0), some (.modB (.lit 0)),
      some (.jumpIfA 0), some (.xorBC 0), some (.emit (.lit 0)), some (.divB (.lit 0)), some (.divC (.lit 0))] := by
  decide

/-- A word of the table runs as the first instruction after reset. -/
theorem test_first_word_runs :
    (stepState (State.reset.withFetchWord 8 0x05)).out = [0] ∧
    (stepState (State.reset.withFetchWord 6 0x05)).pc = 6 := by decide

theorem test_asm : (decode 37#6).asm = "EMIT 4" := by decide
theorem test_opcode_count : opcodeMap.length = Config.nopc := by decide

/-- V-E1: bit string and fetched pairs. -/
theorem test_pack_bits : packValues [5, 4, 0] = .ok
    [true, false, true, false, false, true, false, false, false] := by rfl
theorem test_pack_number : bitsVal (packBits [5, 4, 0, 1, 3, 0]) = 0x3225 := by decide
/-- V-E6. -/
theorem test_pack_refuses : firstBadValue [1, 8] = some 1 := by decide

/-- 60_exceptions.md R130: the codes. -/
theorem test_error_numbers :
    [ErrCode.none, .encodingError, .outOfRange, .misaligned, .invalidOperand, .misalignedJump,
      .stepLimitExceeded].map ErrCode.number = [0, 1, 2, 3, 4, 5, 6] := by decide

/-! ### One step of each instruction (95_test_vectors.md section 3) -/

/-- V-D8: a count whose low 6 bits are 0. -/
theorem test_divA_large_count : (stepState (started [0, 5] 1000 allOnes 0x100000000#64 0)).a = 0 := by decide
/-- V-D6. -/
theorem test_divA_count_63 : (stepState (started [0, 5] 1000 0x8000000000000000#64 63 0)).a = 1 := by decide
/-- V-D11: the dividend is A. -/
theorem test_divB_dividend : (stepState (started [6, 2] 1000 13 99 0)).b = 3 := by decide
/-- V-D12: the old B is the count. -/
theorem test_divB_old_count : (stepState (started [6, 5] 1000 1024 3 0)).b = 128 := by decide
/-- V-D18: the `mod 8`. -/
theorem test_divC_mod : (stepState (started [7, 5] 1000 668 5 0)).c = 4 := by decide
/-- V-D21: count 62. -/
theorem test_divC_count_62 : (stepState (started [7, 5] 1000 allOnes 62 0)).c = 3 := by decide
/-- V-X2. -/
theorem test_xorBLit_high_bits :
    (stepState (started [1, 7] 1000 0 allOnes 0)).b = 0xFFFFFFFFFFFFFFF8#64 := by decide
/-- V-X4, V-X5. -/
theorem test_modB : (stepState (started [2, 4] 1000 668 99 0)).b = 4 ∧
    (stepState (started [2, 5] 1000 0 0xFFFFFFFFFFFFFFFD#64 0)).b = 5 := by decide
/-- V-X10: operand 7 raises nothing. -/
theorem test_xorBC_ignores_operand :
    (stepState (started [4, 7] 1000 0 1 allOnes)).b = 0xFFFFFFFFFFFFFFFE#64 ∧
    (stepState (started [4, 7] 1000 0 1 allOnes)).status = .halted := by decide
/-- V-J3, V-J5: a taken jump to `PROG_BITS` halts; a bad literal not taken raises nothing. -/
theorem test_jump_completes :
    (stepState (started [3, 6] 1000 1 0 0)).status = .halted ∧
    (stepState (started [3, 3] 1000 0 0 0)).status = .halted := by decide
/-- V-J4. -/
theorem test_jump_misaligned :
    (stepState (started [3, 3] 1000 1 0 0)).err = .misalignedJump ∧
    (stepState (started [3, 3] 1000 1 0 0)).errInfo = 3 ∧
    (stepState (started [3, 3] 1000 1 0 0)).steps = 0 := by decide
/-- V-O3. -/
theorem test_emit_low_bits : (stepState (started [5, 5] 1000 0 allOnes 0)).out = [7] := by decide
/-- V-O5. -/
theorem test_emit_invalid :
    (stepState (started [5, 7] 1000 1 0 0)).out = [] ∧
    (stepState (started [5, 7] 1000 1 0 0)).err = .invalidOperand := by decide
/-- V-L3: the step limit wins. -/
theorem test_limit_wins : (stepState (started [5, 7] 0 0 0 0)).err = .stepLimitExceeded := by decide
/-- V-E7. -/
theorem test_out_of_range : (stepState (started [6] 1000 0 0 0)).err = .outOfRange := by decide

/-! ### Witnesses: a concrete state and operands for the hypotheses of each statement -/

/-- The state of the worked scenario S6 at its start. -/
def worked : State := started [5, 4, 0, 1, 3, 0] 1000 10 0 0

/-- The same with other values in B and C. -/
def workedOther : State := { worked with b := 7, c := 9 }

/-- V-E5 at its dangling value. -/
def dangling : State := { started [5, 1, 3] 1000 0 0 0 with pc := 6, steps := 1, out := [1] }

/-- A jump to itself, V-J2. -/
def looping : State := started [3, 0] 5 1 0 0

/-- The other jump to itself, V-J9 after its first step. -/
def loopingAtSix : State := stepState (started [1, 1, 3, 6] 4 1 0 0)

theorem witness_word_and_instr : decode 37#6 = .emit (.reg .A) ∧ encode (.emit (.reg .A)) = 37#6 := by decide
theorem witness_assembled_index :
    1 < [Instr.emit (.reg .A), .divC .reserved].length ∧ [Instr.emit (.reg .A), .divC .reserved].length ≤ 2 := by decide
theorem witness_loadable_list :
    [5, 4, 0, 1, 3, 7].length % 2 = 0 ∧ (∀ v ∈ [5, 4, 0, 1, 3, 7], v ≤ 7) ∧ 2 * 2 + 1 < [5, 4, 0, 1, 3, 7].length := by
  decide
theorem witness_load_running : worked.status = .running := by decide
theorem witness_load_bad_value : State.reset.status ≠ .running ∧ 1 < [7, 8].length ∧ 7 < [7, 8][1] ∧
    (∀ v ∈ [7, 8].take 1, v ≤ 7) := by decide
theorem witness_load_good : State.reset.status ≠ .running ∧ (∀ v ∈ [7, 0], v ≤ 7) := by decide
theorem witness_fetch_misaligned : 13 % 6 ≠ 0 := by decide
theorem witness_fetch_out_of_range : 18 % 6 = 0 ∧ worked.prog.length < 18 + 6 := by decide
theorem witness_fetch_last : 12 % 6 = 0 ∧ 12 + 6 ≤ worked.prog.length := by decide
theorem witness_step_runs : worked.status = .running ∧ worked.steps < worked.maxSteps ∧
    decodeInstruction worked.prog worked.pc = .ok (.emit (.reg .A)) := ⟨by decide, by decide, rfl⟩
theorem witness_combo_clauses : (0 : Digit).toNat ≤ 3 ∧ (3 : Digit).toNat ≤ 3 ∧ ¬ (4 : Digit).toNat ≤ 3 ∧
    (4 : Digit) ≠ 5 ∧ (5 : Digit) ≠ 6 ∧ (6 : Digit) ≠ 7 := by decide
theorem witness_combo_value : comboValue (.reg .B) (started [0, 5] 1000 allOnes 64 0) = some 64 ∧
    comboValue (.lit 3) worked = some 3 := by decide
theorem witness_combo_kind : Opcode.kind .divA = .combo ∧ Opcode.kind .xorBC ≠ .combo := by decide
theorem witness_xor_next : ∃ t, exec (.xorBLit 7) worked = .next t := ⟨_, rfl⟩
theorem witness_jump_not_taken : (started [3, 3] 1000 0 0 0).a.toNat = 0 := by decide
theorem witness_jump_taken : (started [3, 6] 1000 1 0 0).a.toNat ≠ 0 ∧ (6 : Digit).toNat % 6 = 0 ∧
    (6 : Digit).toNat ≤ (started [3, 6] 1000 1 0 0).progBits := by decide
theorem witness_jump_misaligned : (started [3, 7] 1000 1 0 0).a.toNat ≠ 0 ∧ (7 : Digit).toNat % 6 ≠ 0 ∧
    (7 : Digit).toNat > (started [3, 7] 1000 1 0 0).progBits := by decide
/-- The target check fails by range alone in a store shorter than one instruction. -/
theorem witness_jump_beyond : (started [3] 1000 1 0 0).a.toNat ≠ 0 ∧ (6 : Digit).toNat % 6 = 0 ∧
    (6 : Digit).toNat > (started [3] 1000 1 0 0).progBits := by decide
theorem witness_shift_counts : 64 ≤ (64 : Word).toNat ∧ (63 : Word).toNat ≤ 63 := by decide
theorem witness_jump_fetched : (started [3, 6] 1000 1 0 0).a ≠ 0 ∧
    (started [3, 6] 1000 1 0 0).pc + 6 ≤ (started [3, 6] 1000 1 0 0).progBits := by decide
theorem witness_jump_to_itself : looping.status = .running ∧ looping.pc = 0 ∧ looping.a ≠ 0 ∧
    decodeInstruction looping.prog 0 = .ok (.jumpIfA 0) := ⟨by decide, by decide, by decide, rfl⟩
/-- V-J9: six is the other offset a jump can name as its own. -/
theorem test_jump_to_itself_at_six : (stepState loopingAtSix).pc = 6 ∧ (stepState loopingAtSix).b = 1 ∧
    (stepState loopingAtSix).steps = 2 ∧ (stepState loopingAtSix).status = .running := by decide
theorem witness_jump_to_itself_at_six : loopingAtSix.status = .running ∧ loopingAtSix.pc = (6 : Digit).toNat ∧
    loopingAtSix.a ≠ 0 ∧ decodeInstruction loopingAtSix.prog 6 = .ok (.jumpIfA 6) :=
  ⟨by decide, by decide, by decide, rfl⟩
theorem witness_exec_next : ∃ t, exec (.divA (.lit 1)) worked = .next t ∧ t.steps = worked.steps + 1 := ⟨_, rfl, rfl⟩
theorem witness_reads_agree :
    (∀ r ∈ readsOf (.divB (.lit 1)), worked.read r = workedOther.read r) ∧ worked.pc = workedOther.pc ∧
    worked.prog = workedOther.prog ∧ worked.out = workedOther.out ∧ worked.status = workedOther.status ∧
    worked.err = workedOther.err ∧ worked.errInfo = workedOther.errInfo ∧
    Instr.wellFormed (.divB (.lit 1)) = true ∧ (∃ t, exec (.divB (.lit 1)) worked = .next t) ∧
    ∃ t, exec (.divB (.lit 1)) workedOther = .next t :=
  ⟨by decide, rfl, rfl, rfl, rfl, rfl, rfl, by decide, ⟨_, rfl⟩, ⟨_, rfl⟩⟩
theorem witness_run_record : (∃ t, exec (.modB (.reg .A)) worked = .next t) ∧
    ∃ t, exec (.modB (.reg .A))
      { worked with status := .idle, err := .outOfRange, errInfo := 3, steps := 9, maxSteps := 2 } = .next t := ⟨⟨_, rfl⟩, ⟨_, rfl⟩⟩
theorem witness_completed_step : worked.status = .running ∧ ∃ t, step worked = .next t ∧ t.status ≠ .faulted ∧
    t.status = .running := ⟨by decide, _, rfl, by decide, by decide⟩
theorem witness_halting_step : ∃ t, step (started [3, 0] 5 0 0 0) = .next t ∧ t.status = .halted :=
  ⟨_, rfl, by decide⟩
theorem witness_halting_jump : ∃ t, step (started [3, 6] 5 1 0 0) = .next t ∧ t.status = .halted :=
  ⟨_, rfl, by decide⟩
theorem witness_faulting_step : (started [5, 7] 1000 1 0 0).status = .running ∧
    ∃ t, step (started [5, 7] 1000 1 0 0) = .next t ∧ t.status = .faulted := ⟨by decide, _, rfl, by decide⟩
theorem witness_check_limit : (started [5, 7] 0 0 0 0).status = .running ∧
    (started [5, 7] 0 0 0 0).maxSteps ≤ (started [5, 7] 0 0 0 0).steps := by decide
theorem witness_check_misaligned : { worked with pc := 3 }.status = .running ∧
    worked.steps < worked.maxSteps ∧ { worked with pc := 3 }.pc % 6 ≠ 0 := by decide
theorem witness_check_range : dangling.status = .running ∧ dangling.steps < dangling.maxSteps ∧
    dangling.pc % 6 = 0 ∧ dangling.progBits < dangling.pc + 6 := by decide
theorem witness_check_operand :
    decodeInstruction (started [5, 7] 1000 1 0 0).prog 0 = .ok (.emit .reserved) ∧
    Instr.wellFormed (.emit .reserved) = false := ⟨rfl, by decide⟩
theorem witness_check_jump : decodeInstruction (started [3, 3] 1000 1 0 0).prog 0 = .ok (.jumpIfA 3) ∧
    (started [3, 3] 1000 1 0 0).a ≠ 0 ∧ (3 : Digit).toNat % 6 ≠ 0 := ⟨rfl, by decide, by decide⟩
theorem witness_check_none : decodeInstruction worked.prog worked.pc = .ok (.emit (.reg .A)) ∧
    Instr.wellFormed (.emit (.reg .A)) = true ∧ ∀ n, Instr.emit (.reg .A) ≠ .jumpIfA n := ⟨rfl, by decide, by simp⟩
theorem witness_not_running : State.reset.status ≠ .running := by decide
theorem witness_dangling_coherent : dangling.Inv ∧ dangling.status = .running ∧
    ∃ t, step dangling = .next t ∧ t.err = .outOfRange :=
  ⟨⟨by decide, by decide, by decide, by decide, by decide, by decide, by decide⟩, by decide, _, rfl, by decide⟩
theorem witness_empty_program : State.reset.prog = [] := by decide
theorem witness_run_invariant : worked.RunInv ∧ worked.prog.wholeInstrs = true ∧ ∃ t, step worked = .next t :=
  ⟨⟨⟨by decide, by decide, by decide, by decide, by decide, by decide, by decide⟩, by decide, by decide⟩,
    by decide, _, rfl⟩
theorem witness_store_wf : worked.prog.wf = true := by decide
theorem witness_host_operation : State.reset.Inv ∧ ∃ t, perform (.load [5, 4]) State.reset = .next (t, .done) :=
  ⟨⟨by decide, by decide, by decide, by decide, by decide, by decide, by decide⟩, _, rfl⟩
theorem witness_run_bound : looping.maxSteps - looping.steps + 1 ≤ 6 := by decide
theorem witness_same_program : worked.prog = { worked with a := 3, steps := 5, out := [1] }.prog ∧
    worked.maxSteps = { worked with a := 3, steps := 5, out := [1] }.maxSteps := by decide
theorem witness_halting_run : (run (started [5, 4] 1 10 0 0)).Succeeded ∧
    ¬ ((run (started [5, 4] 1 10 0 0)).status = .faulted ∧
      (run (started [5, 4] 1 10 0 0)).err = .stepLimitExceeded) ∧ (started [5, 4] 1 10 0 0).maxSteps ≤ 7 :=
  ⟨by show _ = _; decide, by decide, by decide⟩
/-- A run that ends within its limit by an error of its own (V-O5). -/
theorem witness_run_ended_by_other_error : (run (started [5, 7] 1 1 0 0)).status = .faulted ∧
    (run (started [5, 7] 1 1 0 0)).err ≠ .stepLimitExceeded ∧ (started [5, 7] 1 1 0 0).maxSteps ≤ 7 := by decide
theorem witness_cautious : worked.prog.cautious = true := by decide

end Sys2Proof.Tests
end

/-! ## The round trip of LOAD and Fetch (20_memory.md R35) -/

namespace Sys2Proof

/-- The six bits of instruction `k` in a packed store are the bits of its opcode value, then of its operand value. -/
theorem packBits_pairWindow (vs : List Nat) (k : Nat) (h : 2 * k + 1 < vs.length) :
    ((packBits vs).drop (6 * k)).take 6 = natBits 3 vs[2 * k] ++ natBits 3 vs[2 * k + 1] := by
  have hoff : 6 * k = 3 * (2 * k) := by omega
  rw [hoff, packBits_drop, List.drop_eq_getElem_cons (Nat.lt_of_succ_lt h), List.drop_eq_getElem_cons h,
    packBits, packBits, ← List.append_assoc]
  exact List.take_left' (by simp)

/-- Two packed values, read as one word: the second value stands above the first (30_encoding.md R50). -/
theorem ofNat_bitsVal_natBits_append (u v : Nat) :
    BitVec.ofNat 6 (bitsVal (natBits 3 u ++ natBits 3 v)) = BitVec.ofNat 3 v ++ BitVec.ofNat 3 u := by
  have hu : u % 2 ^ 3 < 2 ^ 3 := Nat.mod_lt _ (by decide)
  apply BitVec.eq_of_toNat_eq
  rw [bitsVal_append, bitsVal_natBits, bitsVal_natBits, natBits_length, BitVec.toNat_ofNat,
    BitVec.toNat_append, BitVec.toNat_ofNat, BitVec.toNat_ofNat, ← Nat.shiftLeft_add_eq_or_of_lt hu,
    Nat.shiftLeft_eq]
  omega

/-- The opcode and operand fields that the decoder reads from a word built of two fields. -/
theorem decode_append_fields (operand opcode : Digit) :
    (decode (operand ++ opcode : InstrWord)).opcode.digit = opcode ∧
    (decode (operand ++ opcode : InstrWord)).operand = operand := by
  simpa only [decode_opcode_digit, decode_operand] using Laws.RoundTrip.append_fields operand opcode

/-- The fetch at `6k` in a packed store decodes the word of values `2k` and `2k + 1`. -/
theorem decodeInstruction_packBits (vs : List Nat) (k : Nat) (h : 2 * k + 1 < vs.length) :
    decodeInstruction (packBits vs) (6 * k) =
      .ok (decode (BitVec.ofNat 3 vs[2 * k + 1] ++ BitVec.ofNat 3 vs[2 * k])) := by
  have hlen := packBits_length vs
  rcases decodeInstruction_cases (packBits vs) (6 * k) with ⟨ha, -⟩ | ⟨-, hr, -⟩ | ⟨-, -, hd⟩
  · omega
  · omega
  · rw [hd, packBits_pairWindow vs k h, ofNat_bitsVal_natBits_append]

/-- A value of a LOAD list survives as a 3-bit field (20_memory.md R33). -/
theorem digit_ofNat_toNat {v : Nat} (h : v ≤ 7) : (BitVec.ofNat 3 v).toNat = v := by
  rw [BitVec.toNat_ofNat, Nat.mod_eq_of_lt (by omega)]

/-- Settles O4: the packed store fetches the word of each pair, whose two fields are the pair's values. -/
theorem fetchRecoversLoadedPairs : Obligations.FetchRecoversLoadedPairs := by
  intro vs _ hrange
  refine ⟨packBits vs, packValues_of_inRange hrange, fun k h => ⟨_, decodeInstruction_packBits vs k h, ?_, ?_⟩⟩
  · rw [(decode_append_fields _ _).1, digit_ofNat_toNat (hrange _ (List.getElem_mem _))]
  · rw [(decode_append_fields _ _).2, digit_ofNat_toNat (hrange _ (List.getElem_mem _))]

end Sys2Proof

/-! ## Combo operands and the ignored operand (30_encoding.md R54, R55) -/

namespace Sys2Proof

/-- The decoder's combo operand of a field in `[0,3]` is the literal. -/
theorem Combo.ofDigit_of_le_three {d : Digit} (h : d.toNat ≤ 3) : Combo.ofDigit d = .lit (d.setWidth 2) :=
  if_pos h

@[simp] theorem Combo.ofDigit_four : Combo.ofDigit 4#3 = .reg .A := rfl
@[simp] theorem Combo.ofDigit_five : Combo.ofDigit 5#3 = .reg .B := rfl
@[simp] theorem Combo.ofDigit_six : Combo.ofDigit 6#3 = .reg .C := rfl
@[simp] theorem Combo.ofDigit_seven : Combo.ofDigit 7#3 = .reserved := rfl

/-- A literal combo operand is worth its field, zero-extended: nothing is lost in the two bits the syntax keeps. -/
theorem Machine.comboValue_ofDigit_of_le_three {d : Digit} (h : d.toNat ≤ 3) (s : Machine.State) :
    Machine.comboValue (.ofDigit d) s = some (BitVec.ofNat 64 d.toNat) := by
  rw [Combo.ofDigit_of_le_three h, Machine.comboValue_lit, Option.some_inj]
  apply BitVec.eq_of_toNat_eq
  simp only [BitVec.toNat_setWidth, BitVec.toNat_ofNat]
  omega

/-- The number `opcode + 8 * operand` is the word with these two fields (30_encoding.md R50). -/
theorem ofNat_add_eight_mul_eq_append (opcode operand : Digit) :
    BitVec.ofNat 6 (opcode.toNat + 8 * operand.toNat) = operand ++ opcode := by
  apply BitVec.eq_of_toNat_eq
  rw [BitVec.toNat_append, ← Nat.shiftLeft_add_eq_or_of_lt opcode.isLt, Nat.shiftLeft_eq, BitVec.toNat_ofNat]
  omega

/-- The word `opcode + 8 * operand` decodes to the instruction of that opcode with that operand field. -/
theorem decode_opcode_add_eight_mul (op : Opcode) (operand : Digit) :
    decode (BitVec.ofNat 6 (op.digit.toNat + 8 * operand.toNat)) = Instr.ofFields op operand := by
  obtain ⟨hop, hoperand⟩ := Laws.RoundTrip.append_fields operand op.digit
  rw [ofNat_add_eight_mul_eq_append, decode, hop, hoperand, Opcode.ofDigit_digit]

/-- XOR_B_C in closed form: the ignored operand does not occur in the outcome. -/
theorem Machine.exec_xorBC (ign : Digit) (s : Machine.State) :
    Machine.exec (.xorBC ign) s = .next (s.write .B (s.b ^^^ s.c)).advance := rfl

/-- Settles O10: each operand field's syntax, then what that syntax is worth; operand 7 leaves only the error entry. -/
theorem comboOperandSelectsLiteralOrRegister : Obligations.ComboOperandSelectsLiteralOrRegister := by
  intro s d
  refine ⟨fun h => Machine.comboValue_ofDigit_of_le_three h s, ?_, ?_, ?_, ?_⟩
  · rintro rfl; simp [Combo.ofDigit_four]
  · rintro rfl; simp [Combo.ofDigit_five]
  · rintro rfl; simp [Combo.ofDigit_six]
  · rintro rfl
    refine ⟨by simp [Combo.ofDigit_seven], fun k => ?_⟩
    have hraise : Machine.withCombo (.ofDigit 7) s k = s.raise .invalidOperand s.pc := by simp [Combo.ofDigit_seven]
    exact ⟨by rw [hraise, Machine.State.raise_err], by rw [hraise, Machine.State.raise_status]⟩

/-- Settles O12: the eight words share the opcode 4, and the outcome does not depend on the operand field. -/
theorem ignoredOperandHasNoEffect : Obligations.IgnoredOperandHasNoEffect := by
  intro m n s
  refine ⟨decode_opcode_add_eight_mul .xorBC n, ?_, _, Machine.exec_xorBC n s, ?_, ?_⟩
  · rw [Machine.exec_xorBC, Machine.exec_xorBC]
  · rw [Machine.State.advance_err, Machine.State.write_err]
  · rw [Machine.State.advance_pc, Machine.State.write_pc]

end Sys2Proof

/-! ## The halt test (40_execution_cycle.md R77) -/

namespace Sys2Proof.Machine

/-- The only nonzero offset that a jump literal can name as a valid target (43_jump.md R112). -/
theorem literal_eq_six {lit : Digit} (haligned : lit.toNat % 6 = 0) (hsix : 6 ≤ lit.toNat) : lit = 6 := by
  apply BitVec.eq_of_toNat_eq
  show lit.toNat = 6
  omega

/-- Where an instruction that raises no error leaves `pc`: six further, or at the target of a taken jump. -/
theorem exec_completed_pc {i : Instr} {s t : State} (h : exec i s = .next t) (hok : t.status ≠ .faulted) :
    t.pc = s.pc + 6 ∨ ∃ lit, i = .jumpIfA lit ∧ s.a ≠ 0 ∧ lit.toNat % 6 = 0 ∧ t.pc = lit.toNat := by
  rcases exec_cases h with ⟨-, rfl⟩ | ⟨lit, -, -, -, rfl⟩ | ⟨lit, hi, htaken, hvalid, rfl⟩ |
    ⟨-, -, -, rfl⟩ | ⟨-, -, r, v, rfl⟩ | ⟨-, -, v, rfl⟩
  · exact absurd (State.raise_status ..) hok
  · exact absurd (State.raise_status ..) hok
  · exact .inr ⟨lit, hi, (jumpTaken_iff s).1 htaken, ((jumpTargetValid_iff _ s).1 hvalid).1, rfl⟩
  · exact .inl rfl
  · exact .inl (by simp)
  · exact .inl rfl

section CompletedStep

variable {s t : State} (hrun : s.status = .running) (hstep : step s = .next t) (hok : t.status ≠ .faulted)
include hrun hstep hok

/-- A step of a run that raises no error has fetched a whole instruction and executed it. -/
theorem step_completed_exec :
    s.pc + 6 ≤ s.progBits ∧ ∃ i, decodeInstruction s.prog s.pc = .ok i ∧ exec i s = .next t := by
  rcases step_running_cases hrun with ⟨-, h⟩ | ⟨-, -, h⟩ | ⟨-, -, -, h⟩ | ⟨-, -, hwhole, i, hdec, h⟩
  · cases h.symm.trans hstep; exact absurd (State.raise_status ..) hok
  · cases h.symm.trans hstep; exact absurd (State.raise_status ..) hok
  · cases h.symm.trans hstep; exact absurd (State.raise_status ..) hok
  · exact ⟨hwhole, i, hdec, h.symm.trans hstep⟩

/-- The commit of a step keeps `pc` within the program and applies the halt test to the new `pc`. -/
theorem step_completed_haltTest : t.progBits = s.progBits ∧ t.pc ≤ t.progBits ∧
    t.status = if t.pc = t.progBits then .halted else .running := by
  rcases step_running_ends hrun hstep with ⟨e, info, rfl, -⟩ | ⟨u, n, rfl, -, -, hn, hu, -, -, -, -, hbits, -⟩
  · exact absurd (State.raise_status ..) hok
  · exact ⟨hbits, hn.trans_eq hbits.symm, by rw [State.commit_status, hu]; rfl⟩

/-- How a completed step reaches the end of the program: by falling off it, or by a taken `JUMP_IF_A 6` in a program
of one instruction. The fetch of the jump needs six bits, and no valid target but 6 is that far. -/
theorem step_completed_at_end (hend : t.pc = s.progBits) : t.pc = s.pc + 6 ∨
    (decodeInstruction s.prog s.pc = .ok (.jumpIfA 6) ∧ s.a ≠ 0 ∧ s.progBits = 6) := by
  obtain ⟨hwhole, i, hdec, hexec⟩ := step_completed_exec hrun hstep hok
  rcases exec_completed_pc hexec hok with hseq | ⟨lit, rfl, ha, haligned, hpc⟩
  · exact .inl hseq
  · obtain rfl : lit = 6 := literal_eq_six haligned (by omega)
    exact .inr ⟨hdec, ha, hend.symm.trans hpc⟩

end CompletedStep

end Sys2Proof.Machine

namespace Sys2Proof

/-- Settles O33: the halt test of the commit, the two ways to the program's end, and the same test at run start. -/
theorem haltExactlyAtProgramEnd : Obligations.HaltExactlyAtProgramEnd := by
  refine ⟨fun s t hrun hstep hok => ?_, fun s a b c => ⟨s.startRun_status a b c, s.startRun_status a 0 0⟩⟩
  obtain ⟨hbits, hpc, hstatus⟩ := Machine.step_completed_haltTest hrun hstep hok
  refine ⟨hpc, hstatus, fun hhalted => ?_⟩
  have hend : t.pc = t.progBits := by
    by_contra hne
    simp [hstatus, hne] at hhalted
  exact Machine.step_completed_at_end hrun hstep hok (hend.trans hbits)

end Sys2Proof

/-! ## The divide-by-power-of-two family (41_divide_shift.md R91, R92, R93) -/

namespace Sys2Proof.Machine

/-- The shift written as the division of 41_divide_shift.md R90, for every count. -/
theorem shr_eq_ofNat_div (v n : Word) : shr v n = BitVec.ofNat 64 (v.toNat / 2 ^ n.toNat) := by
  rw [← shr_toNat, BitVec.ofNat_toNat, BitVec.setWidth_eq]

/-- The three low bits, zero-extended, written as a remainder (41_divide_shift.md R94). -/
theorem zext_mod8_eq_ofNat (v : Word) : zext (mod8 v) = BitVec.ofNat 64 (v.toNat % 8) := by
  rw [← mod8_toNat, ← zext_toNat, BitVec.ofNat_toNat, BitVec.setWidth_eq]

/-- Operand 7 of an opcode of combo kind raises `InvalidOperand` at `pc` (40_execution_cycle.md R74). -/
theorem exec_ofFields_seven {op : Opcode} (h : op.kind = .combo) (s : State) :
    exec (Instr.ofFields op 7) s = .next (s.raise .invalidOperand s.pc) := by
  cases op with
  | divA | modB | emit | divB | divC => rfl
  | xorBLit | jumpIfA | xorBC => cases h

section ComboValue

variable {src : Combo} {s : State} {val : Word} (h : comboValue src s = some val)
include h

theorem exec_divA_of_comboValue :
    exec (.divA src) s = .next (s.write .A (BitVec.ofNat 64 (s.a.toNat / 2 ^ val.toNat))).advance := by
  rw [exec, execDivA, withCombo_of_some h, State.read_A, shr_eq_ofNat_div]

theorem exec_divB_of_comboValue :
    exec (.divB src) s = .next (s.write .B (BitVec.ofNat 64 (s.a.toNat / 2 ^ val.toNat))).advance := by
  rw [exec, execDivB, withCombo_of_some h, State.read_A, shr_eq_ofNat_div]

theorem exec_divC_of_comboValue :
    exec (.divC src) s = .next (s.write .C (BitVec.ofNat 64 (s.a.toNat / 2 ^ val.toNat % 8))).advance := by
  rw [exec, execDivC, withCombo_of_some h, State.read_A, zext_mod8_eq_ofNat, shr_toNat]

end ComboValue

end Sys2Proof.Machine

namespace Sys2Proof

/-- Settles O13: the word, the quotient written to A before the sequential commit, and the error entry of operand 7. -/
theorem divAShiftsAByCombo : Obligations.DivAShiftsAByCombo :=
  ⟨decode_opcode_add_eight_mul .divA, fun _ _ _ h => Machine.exec_divA_of_comboValue h,
    Machine.exec_ofFields_seven (op := .divA) rfl⟩

/-- Settles O14: as for DIV_A, with the quotient of A written to B. -/
theorem divBPutsQuotientOfAIntoB : Obligations.DivBPutsQuotientOfAIntoB :=
  ⟨decode_opcode_add_eight_mul .divB, fun _ _ _ h => Machine.exec_divB_of_comboValue h,
    Machine.exec_ofFields_seven (op := .divB) rfl⟩

/-- Settles O15: as for DIV_A, with the quotient's remainder modulo 8 written to C. -/
theorem divCPutsQuotientOfAModEightIntoC : Obligations.DivCPutsQuotientOfAModEightIntoC :=
  ⟨decode_opcode_add_eight_mul .divC, fun _ _ _ h => Machine.exec_divC_of_comboValue h,
    Machine.exec_ofFields_seven (op := .divC) rfl⟩

end Sys2Proof

/-! ## The bitwise family (42_bitwise.md R100, R101, R102) -/

namespace Sys2Proof.Machine

/-- The exclusive-or of two words, written on numbers as the statements do. -/
theorem xor_eq_ofNat (v w : Word) : v ^^^ w = BitVec.ofNat 64 (v.toNat ^^^ w.toNat) := by
  rw [← BitVec.toNat_xor, BitVec.ofNat_toNat, BitVec.setWidth_eq]

/-- A literal, cut back to its three bits. -/
theorem extractLsb'_literalValue_low (lit : Digit) : (literalValue lit).extractLsb' 0 3 = lit := by
  rw [literalValue, zext, ← BitVec.setWidth_eq_extractLsb' (by decide), BitVec.setWidth_setWidth_of_le _ (by decide),
    BitVec.setWidth_eq]

/-- A literal has no bit above bit 2 (30_encoding.md R53). -/
theorem extractLsb'_literalValue_high (lit : Digit) : (literalValue lit).extractLsb' 3 61 = 0#61 := by
  apply BitVec.eq_of_toNat_eq
  rw [BitVec.extractLsb'_toNat, literalValue_toNat, Nat.shiftRight_eq_div_pow, Nat.div_eq_of_lt lit.isLt]
  rfl

theorem exec_xorBLit (lit : Digit) (s : State) :
    exec (.xorBLit lit) s = .next (s.write .B (s.b ^^^ literalValue lit)).advance := rfl

theorem exec_modB_of_comboValue {src : Combo} {s : State} {val : Word} (h : comboValue src s = some val) :
    exec (.modB src) s = .next (s.write .B (BitVec.ofNat 64 (val.toNat % 8))).advance := by
  rw [exec, execModB, withCombo_of_some h, zext_mod8_eq_ofNat]

end Sys2Proof.Machine

namespace Sys2Proof

/-- Settles O16: the word, the exclusive-or written to B before the sequential commit, and the two fields of B: the
literal occupies the low three bits and is 0 above them. -/
theorem xorBLitFlipsLowBitsOfB : Obligations.XorBLitFlipsLowBitsOfB := by
  refine ⟨decode_opcode_add_eight_mul .xorBLit, fun n s => ?_, fun n s t h => ?_⟩
  · rw [Machine.exec_xorBLit, Machine.xor_eq_ofNat, Machine.literalValue_toNat]
    rfl
  · obtain rfl := Host.Outcome.next.inj ((Machine.exec_xorBLit n s).symm.trans h)
    rw [Machine.State.advance_b, Machine.State.write_B_b, BitVec.extractLsb'_xor, BitVec.extractLsb'_xor]
    constructor
    · rw [Machine.extractLsb'_literalValue_low]
    · rw [Machine.extractLsb'_literalValue_high, BitVec.xor_zero]

/-- Settles O17: the word, the remainder modulo 8 written to B before the sequential commit, and the error entry of
operand 7. -/
theorem modBPutsComboModEightIntoB : Obligations.ModBPutsComboModEightIntoB :=
  ⟨decode_opcode_add_eight_mul .modB, fun _ _ _ h => Machine.exec_modB_of_comboValue h,
    Machine.exec_ofFields_seven (op := .modB) rfl⟩

/-- Settles O18: the word, and the exclusive-or of all 64 bits written to B before the sequential commit. -/
theorem xorBCPutsXorIntoB : Obligations.XorBCPutsXorIntoB := by
  refine ⟨decode_opcode_add_eight_mul .xorBC, fun n s => ?_⟩
  rw [Machine.exec_xorBC, Machine.xor_eq_ofNat]
  rfl

end Sys2Proof

/-! ## The jump (43_jump.md R110) -/

namespace Sys2Proof.Machine

/-- The jump tests all of A (10_state.md R20): A is 0 as a word exactly when it is 0 as a number. -/
theorem a_eq_zero_iff_toNat (s : State) : s.a = 0 ↔ s.a.toNat = 0 :=
  BitVec.toNat_inj (y := (0 : Word)).symm

/-- A jump that is not taken falls through, whatever its literal. -/
theorem exec_jumpIfA_of_a_eq_zero (lit : Digit) {s : State} (h : s.a = 0) :
    exec (.jumpIfA lit) s = .next s.advance := by
  have hfall : ¬ jumpTaken s = true := fun htaken => (jumpTaken_iff s).1 htaken h
  rw [exec, execJumpIfA, if_neg hfall]

section Taken

variable {lit : Digit} {s : State} (htaken : s.a ≠ 0)
include htaken

/-- A taken jump commits its literal, unscaled, as the new `pc`, or raises `MisalignedJump` with it. -/
theorem exec_jumpIfA_of_a_ne_zero : exec (.jumpIfA lit) s = .next
    (if jumpTargetValid lit.toNat s then s.commit lit.toNat else s.raise .misalignedJump lit.toNat) := by
  rw [exec, execJumpIfA, if_pos ((jumpTaken_iff s).2 htaken), literalValue_toNat]

theorem exec_jumpIfA_of_target_valid (haligned : lit.toNat % 6 = 0) (hbound : lit.toNat ≤ s.progBits) :
    exec (.jumpIfA lit) s = .next (s.commit lit.toNat) := by
  rw [exec_jumpIfA_of_a_ne_zero htaken, if_pos ((jumpTargetValid_iff _ s).2 ⟨haligned, hbound⟩)]

theorem exec_jumpIfA_of_target_bad (hbad : lit.toNat % 6 ≠ 0 ∨ s.progBits < lit.toNat) :
    exec (.jumpIfA lit) s = .next (s.raise .misalignedJump lit.toNat) := by
  have hinvalid : ¬ jumpTargetValid lit.toNat s = true := by
    rw [jumpTargetValid_iff]
    omega
  rw [exec_jumpIfA_of_a_ne_zero htaken, if_neg hinvalid]

end Taken

end Sys2Proof.Machine

namespace Sys2Proof

/-- Settles O19: the word, then the jump not taken, taken to a valid target, and taken to a bad one, each as the commit
or the error entry that it is. -/
theorem jumpIfABranchesOnWholeA : Obligations.JumpIfABranchesOnWholeA :=
  ⟨decode_opcode_add_eight_mul .jumpIfA,
    fun n s ha => Machine.exec_jumpIfA_of_a_eq_zero n ((Machine.a_eq_zero_iff_toNat s).2 ha),
    fun _ s ha => Machine.exec_jumpIfA_of_target_valid (mt (Machine.a_eq_zero_iff_toNat s).1 ha),
    fun _ s ha => Machine.exec_jumpIfA_of_target_bad (mt (Machine.a_eq_zero_iff_toNat s).1 ha)⟩

end Sys2Proof

/-! ## The output (44_emit.md R120) -/

namespace Sys2Proof.Machine

/-- The emitted value, written on numbers as the statement does. -/
theorem mod8_eq_ofNat (v : Word) : mod8 v = BitVec.ofNat 3 (v.toNat % 8) := by
  rw [← mod8_toNat, BitVec.ofNat_toNat, BitVec.setWidth_eq]

theorem exec_emit_of_comboValue {src : Combo} {s : State} {val : Word} (h : comboValue src s = some val) :
    exec (.emit src) s = .next (s.append (BitVec.ofNat 3 (val.toNat % 8))).advance := by
  rw [exec, execEmit, withCombo_of_some h, mod8_eq_ofNat]

end Sys2Proof.Machine

namespace Sys2Proof

/-- Settles O20: the word, the one value appended to `out` before the sequential commit, and the error entry of
operand 7, which appends nothing. -/
theorem emitAppendsComboModEight : Obligations.EmitAppendsComboModEight :=
  ⟨decode_opcode_add_eight_mul .emit, fun _ _ _ h => Machine.exec_emit_of_comboValue h,
    Machine.exec_ofFields_seven (op := .emit) rfl⟩

end Sys2Proof

/-! ## Words and instructions (30_encoding.md R50, R57) -/

namespace Sys2Proof

/-- The two fields of an instruction determine it. -/
@[simp] theorem Instr.ofFields_opcode_operand (i : Instr) : Instr.ofFields i.opcode i.operand = i := by
  cases i with
  | divA src | modB src | emit src | divB src | divC src => simp [Instr.ofFields, Instr.opcode, Instr.operand]
  | xorBLit lit | jumpIfA lit | xorBC lit => rfl

@[simp] theorem decode_encode (i : Instr) : decode (encode i) = i :=
  (Laws.RoundTrip.of_ofFields i.ofFields_opcode_operand).2.2

@[simp] theorem encode_decode (w : InstrWord) : encode (decode w) = w := by
  rw [encode, decode_operand, decode_opcode_digit, BitVec.extractLsb'_append_extractLsb'_eq_extractLsb' (by decide)]
  exact BitVec.extractLsb'_eq_self

/-- Settles O1: the decoder, evaluated on each of the thirteen words. -/
theorem specWordsDecode : Obligations.SpecWordsDecode := by
  unfold Obligations.SpecWordsDecode
  decide

/-- Settles O2: the decoder and the encoder are inverse to one another. -/
theorem wordsAndInstructionsCorrespond : Obligations.WordsAndInstructionsCorrespond := fun w i =>
  ⟨fun h => h ▸ encode_decode w, fun h => h ▸ decode_encode i⟩

end Sys2Proof

/-! ## Assembled programs (20_memory.md R32, R34; 30_encoding.md R61) -/

namespace Sys2Proof

@[simp] theorem programValues_length (is : List Instr) : (programValues is).length = 2 * is.length := by
  induction is with
  | nil => rfl
  | cons i is ih => simp [programValues, Instr.values, ih]; omega

/-- The values of an instruction are fields, so LOAD accepts them. -/
theorem programValues_inRange (is : List Instr) : ∀ v ∈ programValues is, v ≤ 7 := by
  induction is with
  | nil => simp [programValues]
  | cons i is ih =>
    have hop := i.opcode.digit.isLt
    have hoperand := i.operand.isLt
    simp only [programValues, Instr.values, List.cons_append, List.nil_append, List.forall_mem_cons]
    exact ⟨by omega, by omega, ih⟩

/-- Instruction `k` of a program stands in its LOAD list as the values `2k` and `2k + 1`. -/
theorem programValues_getElem? (is : List Instr) (k : Nat) :
    (programValues is)[2 * k]? = is[k]?.map (·.opcode.digit.toNat) ∧
    (programValues is)[2 * k + 1]? = is[k]?.map (·.operand.toNat) := by
  induction is generalizing k with
  | nil => simp [programValues]
  | cons i is ih =>
    cases k with
    | zero => simp [programValues, Instr.values]
    | succ k => simpa [programValues, Instr.values, Nat.mul_succ] using ih k

/-- The fetch at `6k` in an assembled program answers instruction `k`. -/
theorem decodeInstruction_programValues (is : List Instr) (k : Nat) (h : k < is.length) :
    decodeInstruction (packBits (programValues is)) (6 * k) = .ok is[k] := by
  have hlen : 2 * k + 1 < (programValues is).length := by rw [programValues_length]; omega
  obtain ⟨hop, hoperand⟩ := programValues_getElem? is k
  rw [List.getElem?_eq_getElem h, Option.map_some, List.getElem?_eq_some_iff] at hop hoperand
  obtain ⟨_, hop⟩ := hop
  obtain ⟨_, hoperand⟩ := hoperand
  rw [decodeInstruction_packBits _ k hlen, hop, hoperand, BitVec.ofNat_toNat, BitVec.ofNat_toNat,
    BitVec.setWidth_eq, BitVec.setWidth_eq]
  exact congrArg _ (decode_encode is[k])

theorem decodeInstruction_of_misaligned {m : Memory} {off : Nat} (h : off % 6 ≠ 0) :
    decodeInstruction m off = .error (.misaligned off) := by
  rcases decodeInstruction_cases m off with ⟨-, hd⟩ | ⟨ha, -⟩ | ⟨ha, -⟩
  · exact hd
  · exact absurd ha h
  · exact absurd ha h

theorem decodeInstruction_of_outOfRange {m : Memory} {off : Nat} (ha : off % 6 = 0) (hr : m.length < off + 6) :
    decodeInstruction m off = .error (.outOfRange off) := by
  rcases decodeInstruction_cases m off with ⟨hne, -⟩ | ⟨-, -, hd⟩ | ⟨-, hle, -⟩
  · exact absurd ha hne
  · exact hd
  · omega

theorem decodeInstruction_of_window {m : Memory} {off : Nat} (ha : off % 6 = 0) (hr : off + 6 ≤ m.length) :
    decodeInstruction m off = .ok (decode (BitVec.ofNat 6 (bitsVal ((m.drop off).take 6)))) := by
  rcases decodeInstruction_cases m off with ⟨hne, -⟩ | ⟨-, hlt, -⟩ | ⟨-, -, hd⟩
  · exact absurd ha hne
  · omega
  · exact hd

/-- The fetch of a whole instruction reads the word `floor(S / 2^off) mod 64` (20_memory.md R34). -/
theorem decodeInstruction_of_whole {m : Memory} {off : Nat} (ha : off % 6 = 0) (hr : off + 6 ≤ m.length) :
    decodeInstruction m off = .ok (decode (BitVec.ofNat 6 (bitsVal m / 2 ^ off % 64))) := by
  rw [decodeInstruction_of_window ha hr, bitsVal_window m off 6 hr]
  rfl

/-- Settles O3: the LOAD list of the program packs, and each pair of its values is one instruction's word. -/
theorem assembledProgramDecodesInstructionByInstruction :
    Obligations.AssembledProgramDecodesInstructionByInstruction := by
  intro is
  have hlen : (packBits (programValues is)).length = 6 * is.length := by
    rw [packBits_length, programValues_length]; omega
  refine ⟨_, packValues_of_inRange (programValues_inRange is), hlen, decodeInstruction_programValues is,
    fun k hk => decodeInstruction_of_outOfRange (by omega) (by omega)⟩

end Sys2Proof

/-! ## LOAD and the fetch, bit by bit (20_memory.md R32, R33, R34; 70_reset_and_hazards.md R161) -/

namespace Sys2Proof

/-- The packed stream as a number has the list as its base-8 digits. -/
theorem bitsVal_packBits {vs : List Nat} (h : ∀ v ∈ vs, v ≤ 7) : bitsVal (packBits vs) = Nat.ofDigits 8 vs := by
  induction vs with
  | nil => rfl
  | cons v vs ih =>
    obtain ⟨hv, hvs⟩ := List.forall_mem_cons.1 h
    have hdigit : v % 2 ^ 3 = v := Nat.mod_eq_of_lt (by omega)
    rw [packBits, bitsVal_append, bitsVal_natBits, natBits_length, ih hvs, hdigit, Nat.ofDigits_cons]
    rfl

/-- Settles O5: LOAD's packing in its bit form and in its number form. -/
theorem packingFollowsBitFormula : Obligations.PackingFollowsBitFormula := fun vs h =>
  ⟨packBits vs, packValues_of_inRange h, packBits_length vs, packBits_getElem? vs, bitsVal_packBits h⟩

/-- The index LOAD reports: a value above 7 with none before it. -/
theorem firstBadValue_eq_some {vs : List Nat} {k : Nat} (h : k < vs.length) (hbad : 7 < vs[k])
    (hbefore : ∀ v ∈ vs.take k, v ≤ 7) : firstBadValue vs = some k := by
  induction vs generalizing k with
  | nil => cases h
  | cons v vs ih =>
    cases k with
    | zero => exact if_neg (Nat.not_le.2 hbad)
    | succ k =>
      obtain ⟨hv, hrest⟩ := List.forall_mem_cons.1 hbefore
      rw [firstBadValue, if_pos hv, ih (Nat.lt_of_succ_lt_succ h) hbad hrest, Option.map_some]

theorem packValues_of_firstBadValue {vs : List Nat} {k : Nat} (h : firstBadValue vs = some k) :
    packValues vs = .error k := by
  simp [packValues, h]

namespace Machine

theorem load_of_running {s : State} (vs : List Nat) (h : s.status = .running) :
    load vs s = .refused .loadWhileRunning := if_pos h

theorem load_of_packValues_error {vs : List Nat} {s : State} {k : Nat} (hs : s.status ≠ .running)
    (h : packValues vs = .error k) : load vs s = .next (s, .encodingError k) := by
  simp [load, hs, h]

theorem load_of_packValues_ok {vs : List Nat} {s : State} {m : Memory} (hs : s.status ≠ .running)
    (h : packValues vs = .ok m) : load vs s = .next ({ s with prog := m }, .done) := by
  simp [load, hs, h]

end Machine

/-- Settles O6: LOAD refused, LOAD reporting the first value above 7, and LOAD storing the packed bits. -/
theorem loadReplacesStoreOrReportsFirstBadValue : Obligations.LoadReplacesStoreOrReportsFirstBadValue := fun vs _ =>
  ⟨Machine.load_of_running vs,
    fun hs _ hk hbad hbefore =>
      Machine.load_of_packValues_error hs (packValues_of_firstBadValue (firstBadValue_eq_some hk hbad hbefore)),
    fun hs h => ⟨packBits vs, Machine.load_of_packValues_ok hs (packValues_of_inRange h), packBits_length vs,
      packBits_getElem? vs⟩⟩

/-- Bit `j` of the stream is bit `j` of the stream number (00_scope.md R7). -/
theorem getElem?_eq_testBit_bitsVal {bs : List Bool} {j : Nat} (h : j < bs.length) :
    bs[j]? = some ((bitsVal bs).testBit j) := by
  induction bs generalizing j with
  | nil => cases h
  | cons b bs ih =>
    cases j with
    | zero => cases b <;> simp [bitsVal, Nat.testBit_zero]
    | succ j =>
      have hhalf : (b.toNat + 2 * bitsVal bs) / 2 = bitsVal bs := by
        have := b.toNat_lt
        omega
      rw [List.getElem?_cons_succ, ih (Nat.lt_of_succ_lt_succ h), bitsVal, Nat.testBit_succ, hhalf]

/-- Bit `j` of the word fetched at `off` is bit `off + j` of the store. -/
theorem Memory.bit?_eq_fetched {m : Memory} {off j : Nat} (hr : off + 6 ≤ m.length) (hj : j < 6) :
    m.bit? (off + j) = some ((BitVec.ofNat 6 (bitsVal m / 2 ^ off % 64)).getLsbD j) := by
  have hmod : bitsVal m / 2 ^ off % 64 = bitsVal m / 2 ^ off % 2 ^ 6 := rfl
  rw [Memory.bit?, getElem?_eq_testBit_bitsVal (by omega), BitVec.getLsbD_ofNat, hmod, Nat.testBit_mod_two_pow,
    Nat.testBit_div_two_pow, Nat.add_comm]
  simp [hj]

/-- Settles O7: the two failing checks, and the six bits of the fetched word as opcode and operand field. -/
theorem fetchChecksAlignmentThenRangeThenReads : Obligations.FetchChecksAlignmentThenRangeThenReads := by
  refine fun m off => ⟨decodeInstruction_of_misaligned, decodeInstruction_of_outOfRange, fun ha hr =>
    ⟨_, decodeInstruction_of_whole ha hr, fun j hj => ?_, fun j hj => ?_, rfl⟩⟩
  · rw [Memory.bit?_eq_fetched hr (by omega), decode_opcode_digit, BitVec.getLsbD_extractLsb']
    simp [hj]
  · rw [Nat.add_assoc, Memory.bit?_eq_fetched hr (by omega), decode_operand, BitVec.getLsbD_extractLsb']
    simp [hj]

end Sys2Proof

/-! ## The step of a decoded instruction, and the placed word (40_execution_cycle.md R72, R80) -/

namespace Sys2Proof.Machine

/-- A step of a run below its limit is the instruction its fetch answers. -/
theorem step_eq_exec {s : State} {i : Instr} (hrun : s.status = .running) (hlimit : s.steps < s.maxSteps)
    (hdec : decodeInstruction s.prog s.pc = .ok i) : step s = exec i s := by
  obtain ⟨ha, hr, -⟩ := decodeInstruction_ok hdec
  rcases step_running_cases hrun with ⟨hl, -⟩ | ⟨-, hp, -⟩ | ⟨-, -, hlt, -⟩ | ⟨-, -, -, j, hj, hstep⟩
  · omega
  · exact absurd ha hp
  · exact absurd hr (Nat.not_le.2 hlt)
  · cases hj.symm.trans hdec
    exact hstep

/-- The bits laid at an offset stand there, whole. -/
theorem placeBits_window (m : Memory) (addr : Nat) (bits : Memory) :
    addr + bits.length ≤ (placeBits m addr bits).length ∧
    ((placeBits m addr bits).drop addr).take bits.length = bits := by
  have hbelow : ((m ++ List.replicate (addr - m.length) false).take addr).length = addr := by simp; omega
  constructor
  · simp only [placeBits, List.length_append, hbelow]
    omega
  · rw [placeBits, List.append_assoc, List.drop_left' hbelow, List.take_left' rfl]

/-- The fetch at a multiple of 6 reads the six bits laid there. -/
theorem decodeInstruction_placeBits (m : Memory) {addr : Nat} {bits : Memory} (ha : addr % 6 = 0)
    (hbits : bits.length = 6) :
    decodeInstruction (placeBits m addr bits) addr = .ok (decode (BitVec.ofNat 6 (bitsVal bits))) := by
  obtain ⟨hlen, hwindow⟩ := placeBits_window m addr bits
  rw [hbits] at hlen hwindow
  rw [decodeInstruction_of_window ha hlen, hwindow]

@[simp] theorem tableBits_length (nbits w : Nat) : (tableBits nbits w).length = 6 := natBits_length ..

/-- The decoder reads an instruction from every word of the table. -/
theorem decodeTableWord_eq (nbits w : Nat) :
    decodeTableWord nbits w = some (decode (BitVec.ofNat 6 (bitsVal (tableBits nbits w)))) := by
  have hlen : (tableBits nbits w).length = 6 := tableBits_length nbits w
  rw [decodeTableWord, decodeInstruction_of_window rfl hlen.ge, List.drop_zero, List.take_of_length_le hlen.le]

/-- The placed state is in a run and below its step limit. -/
theorem State.withFetchWord_ready (s : State) (nbits w : Nat) :
    (s.withFetchWord nbits w).status = .running ∧
    (s.withFetchWord nbits w).steps < (s.withFetchWord nbits w).maxSteps := by
  refine ⟨rfl, ?_⟩
  simp only [State.withFetchWord]
  split <;> split <;> omega

end Sys2Proof.Machine

namespace Sys2Proof

/-- Settles O8: nothing stands between a step and the instruction it fetched. -/
theorem stepRunsDecodedInstruction : Obligations.StepRunsDecodedInstruction := fun _ _ => Machine.step_eq_exec

/-- Settles O9: the placed state can step, and its fetch reads the placed bits. -/
theorem placedWordRunsNext : Obligations.PlacedWordRunsNext := by
  intro s nbits w
  obtain ⟨hrun, hlimit⟩ := s.withFetchWord_ready nbits w
  have haligned : (s.withFetchWord nbits w).pc % 6 = 0 := by
    simp only [Machine.State.withFetchWord, Config.ilen]
    omega
  exact ⟨_, Machine.decodeTableWord_eq nbits w,
    Machine.step_eq_exec hrun hlimit
      (Machine.decodeInstruction_placeBits s.prog haligned (Machine.tableBits_length nbits w))⟩

end Sys2Proof

/-! ## Corner cases of the instructions (30_encoding.md R58; 41_divide_shift.md R90; 43_jump.md R112) -/

namespace Sys2Proof.Machine

/-- Every count shifts as 41_divide_shift.md R90 says bit by bit: bits of `v` above 63 are 0. -/
theorem shr_getLsbD (v n : Word) (j : Nat) : (shr v n).getLsbD j = v.getLsbD (n.toNat + j) := by
  rw [BitVec.getLsbD, shr_toNat, Nat.testBit_div_two_pow, Nat.add_comm, BitVec.getLsbD]

/-- The three low bits, zero-extended, keep bits 0 to 2. -/
theorem zext_mod8_getLsbD (v : Word) {j : Nat} (hj : j < 3) : (zext (mod8 v)).getLsbD j = v.getLsbD j := by
  have hword : j < 64 := by omega
  simp [zext, mod8, hj, hword]

theorem zext_toNat_le (d : Digit) : (zext d).toNat ≤ 7 := by
  have := d.isLt
  rw [zext_toNat]
  omega

end Sys2Proof.Machine

namespace Sys2Proof

/-- Settles O11: operand 7 of the combo kind is the error entry; XOR_B_LIT and XOR_B_C complete with it, and so does
JUMP_IF_A with A = 0, whose taken jump raises an error of another name. -/
theorem operandSevenIsIllegalExactlyForComboKind : Obligations.OperandSevenIsIllegalExactlyForComboKind := by
  refine fun op s => ⟨fun h => ?_, fun h => Machine.exec_ofFields_seven h s⟩
  cases op with
  | divA | modB | emit | divB | divC => rfl
  | xorBLit | xorBC =>
    have hsteps : s.steps + 1 = s.steps := congrArg Machine.State.steps (Host.Outcome.next.inj h)
    omega
  | jumpIfA =>
    by_cases ha : s.a = 0
    · have hsteps : s.steps + 1 = s.steps := congrArg Machine.State.steps
        (Host.Outcome.next.inj ((Machine.exec_jumpIfA_of_a_eq_zero 7 ha).symm.trans h))
      omega
    · have herr : Machine.ErrCode.misalignedJump = .invalidOperand := congrArg Machine.State.err
        (Host.Outcome.next.inj ((Machine.exec_jumpIfA_of_target_bad ha (.inl (by decide))).symm.trans h))
      cases herr

/-- Settles O21: the shift as a quotient, and what that says of its size, of large counts and of its bits. -/
theorem shiftIsExactFloorForEveryCount : Obligations.ShiftIsExactFloorForEveryCount := by
  refine fun v n => ⟨Machine.shr_toNat v n, ?_, fun h => if_neg (by omega), fun _ => Machine.shr_getLsbD v n⟩
  rw [Machine.shr_toNat]
  exact Nat.div_le_self ..

/-- Settles O22: a number is less than 2 to its own power. -/
theorem divAByItselfClearsA : Obligations.DivAByItselfClearsA := by
  refine fun s => ⟨_, Machine.exec_divA_of_comboValue (Machine.comboValue_reg .A s), ?_⟩
  rw [Machine.State.advance_a, Machine.State.write_A_a, Machine.State.read_A, Nat.div_eq_of_lt Nat.lt_two_pow_self]
  rfl

/-- Settles O23: DIV_C keeps the three low bits of the shift, and the shift moves bit `val + j` to bit `j`. -/
theorem divCKeepsThreeBitFieldOfA : Obligations.DivCKeepsThreeBitFieldOfA := by
  intro src val s h
  have hexec : Machine.exec (.divC src) s =
      .next (s.write .C (Machine.zext (Machine.mod8 (Machine.shr s.a val)))).advance :=
    congrArg Host.Outcome.next (Machine.withCombo_of_some h _)
  refine ⟨_, hexec, Machine.zext_toNat_le _, fun j hj => ?_⟩
  rw [Machine.State.advance_c, Machine.State.write_C_c, Machine.zext_mod8_getLsbD _ hj, Machine.shr_getLsbD]

/-- Settles O24: literal 0 is below every program's end, literal 6 within it since the jump itself was fetched; no
other 3-bit literal is a multiple of 6. -/
theorem takenJumpReachesOnlyOffsetsZeroAndSix : Obligations.TakenJumpReachesOnlyOffsetsZeroAndSix := by
  intro n s ha hfetch
  by_cases hzero : n = 0
  · subst hzero
    have hnotEnd : ¬ 0 = s.progBits := by omega
    rw [Machine.exec_jumpIfA_of_target_valid ha rfl (Nat.zero_le _), if_pos rfl]
    simp [Machine.State.commit, hnotEnd]
  · by_cases hsix : n = 6
    · subst hsix
      rw [Machine.exec_jumpIfA_of_target_valid ha rfl (le_of_add_le_right hfetch), if_neg hzero, if_pos rfl]
      simp [Machine.State.commit, eq_comm]
    · have hpos : n.toNat ≠ 0 := fun h => hzero (BitVec.eq_of_toNat_eq h)
      have hbad : n.toNat % 6 ≠ 0 := fun h => hsix (Machine.literal_eq_six h (by omega))
      rw [Machine.exec_jumpIfA_of_target_bad ha (.inl hbad), if_neg hzero, if_neg hsix]
      rfl

/-- Settles O25: the operand value is the register's at the start of the step, for each destination. -/
theorem overlappingOperandsUseOldValues : Obligations.OverlappingOperandsUseOldValues := by
  refine fun s => ⟨⟨_, rfl, Machine.shr_toNat ..⟩, ⟨_, rfl, ?_⟩, ⟨_, rfl, Machine.shr_toNat ..⟩, ⟨_, rfl, ?_⟩⟩
  · exact (Machine.zext_toNat _).trans (Machine.mod8_toNat _)
  · exact (Machine.zext_toNat _).trans ((Machine.mod8_toNat _).trans (congrArg (· % 8) (Machine.shr_toNat ..)))

end Sys2Proof

/-! ## What an instruction reads and writes (10_state.md R12; 40_execution_cycle.md R74, R78)

An instruction is its resolution (phase 2 and the jump's check: an error, or the operand value with the next `pc`)
followed by an update of its destination and the commit. Frames and read sets are then facts about the two parts. -/

namespace Sys2Proof.Machine

/-- The combo operand of an instruction; one worth 0 where it has none. -/
def comboOf : Instr → Combo
  | .divA src | .modB src | .emit src | .divB src | .divC src => src
  | .xorBLit _ | .jumpIfA _ | .xorBC _ => .lit 0

/-- The error an instruction raises, or its operand value and the next `pc`. -/
def resolve (i : Instr) (s : State) : Except (ErrCode × Nat) (Word × Nat) :=
  match i with
  | .jumpIfA lit =>
    if jumpTaken s then
      if jumpTargetValid lit.toNat s then .ok (0, lit.toNat) else .error (.misalignedJump, lit.toNat)
    else .ok (0, s.pc + Config.ilen)
  | i =>
    match comboValue (comboOf i) s with
    | some val => .ok (val, s.pc + Config.ilen)
    | none => .error (.invalidOperand, s.pc)

/-- What an instruction does to its destination, given its operand value. -/
def update (i : Instr) (val : Word) (s : State) : State :=
  match i with
  | .divA _ => s.write .A (shr s.a val)
  | .xorBLit lit => s.write .B (s.b ^^^ literalValue lit)
  | .modB _ => s.write .B (zext (mod8 val))
  | .jumpIfA _ => s
  | .xorBC _ => s.write .B (s.b ^^^ s.c)
  | .emit _ => s.append (mod8 val)
  | .divB _ => s.write .B (shr s.a val)
  | .divC _ => s.write .C (zext (mod8 (shr s.a val)))

/-- The end of an instruction, from its resolution. -/
def finish (i : Instr) (s : State) : Except (ErrCode × Nat) (Word × Nat) → State
  | .error (e, info) => s.raise e info
  | .ok (val, n) => (update i val s).commit n

/-- Every instruction is resolution, update and commit. -/
theorem exec_eq_finish (i : Instr) (s : State) : exec i s = .next (finish i s (resolve i s)) := by
  cases i with
  | divA src | modB src | emit src | divB src | divC src => cases src <;> rfl
  | xorBLit lit | xorBC lit => rfl
  | jumpIfA lit =>
    by_cases ht : jumpTaken s
    · by_cases hv : jumpTargetValid lit.toNat s <;> simp [exec, execJumpIfA, resolve, finish, update, ht, hv]
    · simp [exec, execJumpIfA, resolve, finish, update, State.advance, ht]

theorem exec_eq_next_iff {i : Instr} {s t : State} : exec i s = .next t ↔ t = finish i s (resolve i s) := by
  rw [exec_eq_finish, Host.Outcome.next.injEq, eq_comm]

/-! ### The frame of the update -/

theorem State.write_read (s : State) (r' : Reg) (v : Word) (r : Reg) :
    (s.write r' v).read r = if r = r' then v else s.read r := by
  cases r' <;> cases r <;> rfl

@[simp] theorem State.append_read (s : State) (v : Digit) (r : Reg) : (s.append v).read r = s.read r := by
  cases r <;> rfl

section Update

variable (i : Instr) (val : Word) (s : State)

@[simp] theorem update_pc : (update i val s).pc = s.pc := by cases i <;> rfl
@[simp] theorem update_status : (update i val s).status = s.status := by cases i <;> rfl
@[simp] theorem update_err : (update i val s).err = s.err := by cases i <;> rfl
@[simp] theorem update_errInfo : (update i val s).errInfo = s.errInfo := by cases i <;> rfl
@[simp] theorem update_steps : (update i val s).steps = s.steps := by cases i <;> rfl
@[simp] theorem update_prog : (update i val s).prog = s.prog := by cases i <;> rfl
@[simp] theorem update_maxSteps : (update i val s).maxSteps = s.maxSteps := by cases i <;> rfl

/-- EMIT alone appends, one value. -/
theorem update_out : (update i val s).out = if i.opcode = .emit then s.out ++ [mod8 val] else s.out := by
  cases i <;> rfl

theorem update_read_of_not_mem {r : Reg} (h : r ∉ writesOf i) : (update i val s).read r = s.read r := by
  cases i with
  | divA src | modB src | divB src | divC src | xorBLit lit | xorBC lit =>
    exact (s.write_read _ _ r).trans (if_neg (List.ne_of_not_mem_cons h))
  | jumpIfA lit => rfl
  | emit src => exact s.append_read _ r

end Update

@[simp] theorem State.commit_read (s : State) (n : Nat) (r : Reg) : (s.commit n).read r = s.read r := by
  cases r <;> rfl

@[simp] theorem State.raise_read (s : State) (e : ErrCode) (info : Nat) (r : Reg) :
    (s.raise e info).read r = s.read r := by
  cases r <;> rfl

/-! ### The frame of an instruction -/

section Frame

variable {i : Instr} {s t : State} (h : exec i s = .next t)
include h

theorem exec_read_of_not_mem {r : Reg} (hr : r ∉ writesOf i) : t.read r = s.read r := by
  obtain rfl := exec_eq_next_iff.1 h
  rcases resolve i s with ⟨e, info⟩ | ⟨val, n⟩
  · simp [finish]
  · simp [finish, update_read_of_not_mem i val s hr]

theorem exec_out_of_ne_emit (hi : i.opcode ≠ .emit) : t.out = s.out := by
  obtain rfl := exec_eq_next_iff.1 h
  rcases resolve i s with ⟨e, info⟩ | ⟨val, n⟩
  · rfl
  · simp [finish, update_out, hi]

theorem exec_prog_maxSteps : t.prog = s.prog ∧ t.maxSteps = s.maxSteps := by
  obtain rfl := exec_eq_next_iff.1 h
  rcases resolve i s with ⟨e, info⟩ | ⟨val, n⟩
  · exact ⟨rfl, rfl⟩
  · simp [finish]

end Frame

/-- The writers of each register (10_state.md R12, column "writes"). -/
theorem mem_writesOf_iff (i : Instr) :
    (Reg.A ∈ writesOf i ↔ i.opcode = .divA) ∧
    (Reg.B ∈ writesOf i ↔ i.opcode = .xorBLit ∨ i.opcode = .modB ∨ i.opcode = .xorBC ∨ i.opcode = .divB) ∧
    (Reg.C ∈ writesOf i ↔ i.opcode = .divC) := by
  cases i <;> simp [writesOf, Instr.opcode]

/-! ### The read set of an instruction -/

section Reads

variable {i : Instr} {s s' : State} (hreads : ∀ r ∈ readsOf i, s.read r = s'.read r)
include hreads

/-- The operand value comes from the registers the instruction reads. -/
theorem comboValue_comboOf_congr : comboValue (comboOf i) s = comboValue (comboOf i) s' := by
  have hmem : ∀ r ∈ Combo.regs (comboOf i), r ∈ readsOf i := by
    intro r hr
    cases i with
    | divA src | divB src | divC src => exact List.mem_cons_of_mem _ hr
    | modB src | emit src => exact hr
    | xorBLit lit | jumpIfA lit | xorBC lit => cases hr
  cases hc : comboOf i with
  | lit v => rfl
  | reg r => exact congrArg some (hreads r (hmem r (by simp [hc, Combo.regs])))
  | reserved => rfl

theorem resolve_congr (hpc : s.pc = s'.pc) (hprog : s.prog = s'.prog) : resolve i s = resolve i s' := by
  cases i with
  | jumpIfA lit =>
    have ha : s.a = s'.a := hreads .A (by simp [readsOf])
    simp [resolve, jumpTaken, jumpTargetValid, State.progBits, ha, hpc, hprog]
  | divA src | modB src | emit src | divB src | divC src | xorBLit lit | xorBC lit =>
    simp only [resolve, comboValue_comboOf_congr hreads, hpc]

/-- What is written depends on the registers the instruction reads. -/
theorem update_read_congr (val : Word) {r : Reg} (hr : r ∈ writesOf i) :
    (update i val s).read r = (update i val s').read r := by
  cases i with
  | divA src | divB src | divC src =>
    obtain rfl := List.mem_singleton.1 hr
    have ha : s.a = s'.a := hreads .A (by simp [readsOf])
    simp [update, ha]
  | xorBLit lit =>
    obtain rfl := List.mem_singleton.1 hr
    have hb : s.b = s'.b := hreads .B (by simp [readsOf])
    simp [update, hb]
  | xorBC lit =>
    obtain rfl := List.mem_singleton.1 hr
    have hb : s.b = s'.b := hreads .B (by simp [readsOf])
    have hc : s.c = s'.c := hreads .C (by simp [readsOf])
    simp [update, hb, hc]
  | modB src =>
    obtain rfl := List.mem_singleton.1 hr
    rfl
  | jumpIfA lit | emit src => cases hr

end Reads

/-- A well-formed instruction that raises an error writes no register: it is a jump. -/
theorem writesOf_eq_nil_of_resolve_error {i : Instr} {s : State} {e : ErrCode × Nat} (hi : i.wellFormed = true)
    (h : resolve i s = .error e) : writesOf i = [] := by
  cases i with
  | jumpIfA lit => rfl
  | emit src => rfl
  | xorBLit lit | xorBC lit => cases h
  | divA src | modB src | divB src | divC src =>
    cases src with
    | lit v | reg r => cases h
    | reserved => cases hi

section Congruence

variable {i : Instr} {s t s' t' : State} (hreads : ∀ r ∈ readsOf i, s.read r = s'.read r) (hpc : s.pc = s'.pc)
  (hprog : s.prog = s'.prog) (h : exec i s = .next t) (h' : exec i s' = .next t')
include hreads hpc hprog h h'

theorem exec_pc_congr : t.pc = t'.pc := by
  obtain rfl := exec_eq_next_iff.1 h
  obtain rfl := exec_eq_next_iff.1 h'
  rw [← resolve_congr hreads hpc hprog]
  rcases resolve i s with ⟨e, info⟩ | ⟨val, n⟩
  · exact hpc
  · rfl

theorem exec_out_congr (hout : s.out = s'.out) : t.out = t'.out := by
  obtain rfl := exec_eq_next_iff.1 h
  obtain rfl := exec_eq_next_iff.1 h'
  rw [← resolve_congr hreads hpc hprog]
  rcases resolve i s with ⟨e, info⟩ | ⟨val, n⟩
  · exact hout
  · simp [finish, update_out, hout]

theorem exec_record_congr (hstatus : s.status = s'.status) (herr : s.err = s'.err) (hinfo : s.errInfo = s'.errInfo) :
    t.status = t'.status ∧ t.err = t'.err ∧ t.errInfo = t'.errInfo := by
  obtain rfl := exec_eq_next_iff.1 h
  obtain rfl := exec_eq_next_iff.1 h'
  rw [← resolve_congr hreads hpc hprog]
  rcases resolve i s with ⟨e, info⟩ | ⟨val, n⟩
  · exact ⟨rfl, rfl, rfl⟩
  · simp [finish, State.progBits, hprog, hstatus, herr, hinfo]

theorem exec_written_congr (hi : i.wellFormed = true) {r : Reg} (hr : r ∈ writesOf i) : t.read r = t'.read r := by
  obtain rfl := exec_eq_next_iff.1 h
  obtain rfl := exec_eq_next_iff.1 h'
  rw [← resolve_congr hreads hpc hprog]
  cases hres : resolve i s with
  | error e => simp [writesOf_eq_nil_of_resolve_error hi hres] at hr
  | ok p => simp [finish, update_read_congr hreads p.1 hr]

end Congruence

/-- An instruction with a reserved combo operand raises `InvalidOperand` at `pc`. -/
theorem exec_of_not_wellFormed {i : Instr} (h : i.wellFormed = false) (s : State) :
    exec i s = .next (s.raise .invalidOperand s.pc) := by
  obtain ⟨t, ht⟩ := exec_isNext i s
  rcases exec_cases ht with ⟨-, rfl⟩ | ⟨lit, rfl, -⟩ | ⟨lit, rfl, -⟩ | ⟨hw, -⟩ | ⟨hw, -⟩ | ⟨hw, -⟩
  · exact ht
  · cases h
  · cases h
  · exact absurd (h.symm.trans hw) (by decide)
  · exact absurd (h.symm.trans hw) (by decide)
  · exact absurd (h.symm.trans hw) (by decide)

end Sys2Proof.Machine

namespace Sys2Proof

/-- Settles O27: the frame of the update, with the writers of each register by their opcodes. -/
theorem instructionsWriteOnlyTheirDestinations : Obligations.InstructionsWriteOnlyTheirDestinations := by
  intro i s t h
  obtain ⟨hA, hB, hC⟩ := Machine.mem_writesOf_iff i
  obtain ⟨hprog, hmax⟩ := Machine.exec_prog_maxSteps h
  refine ⟨fun hi => Machine.exec_read_of_not_mem h (r := .A) (by rwa [hA]),
    fun h1 h2 h3 h4 => Machine.exec_read_of_not_mem h (r := .B) (by simp [hB, h1, h2, h3, h4]),
    fun hi => Machine.exec_read_of_not_mem h (r := .C) (by rwa [hC]),
    Machine.exec_out_of_ne_emit h, fun k => by rw [hprog], hmax⟩

/-- Settles O28: the two runs resolve alike, so they end alike. -/
theorem instructionsReadOnlyTheirSources : Obligations.InstructionsReadOnlyTheirSources := by
  intro i s t s' t' hreads hpc hprog hout hstatus herr hinfo h h'
  obtain ⟨hstatus', herr', hinfo'⟩ := Machine.exec_record_congr hreads hpc hprog h h' hstatus herr hinfo
  exact ⟨Machine.exec_pc_congr hreads hpc hprog h h', Machine.exec_out_congr hreads hpc hprog h h' hout, hstatus',
    herr', hinfo', fun hi _ hr => Machine.exec_written_congr hreads hpc hprog h h' hi hr⟩

/-- Settles O29: the two states agree on all registers, so what is written agrees by the read set, and what is not
written by the frame; a reserved operand writes nothing. -/
theorem instructionsDoNotReadRunRecord : Obligations.InstructionsDoNotReadRunRecord := by
  intro i s t t' st e info n limit h h'
  have hregs : ∀ r, Machine.State.read
      { s with status := st, err := e, errInfo := info, steps := n, maxSteps := limit } r = s.read r :=
    fun r => by cases r <;> rfl
  have hread : ∀ r, t'.read r = t.read r := by
    intro r
    by_cases hr : r ∈ Machine.writesOf i
    · by_cases hi : i.wellFormed = true
      · exact Machine.exec_written_congr (fun r _ => hregs r) rfl rfl h' h hi hr
      · have hbad : i.wellFormed = false := by simpa using hi
        cases (Machine.exec_of_not_wellFormed hbad _).symm.trans h
        cases (Machine.exec_of_not_wellFormed hbad _).symm.trans h'
        simpa using hregs r
    · rw [Machine.exec_read_of_not_mem h' hr, Machine.exec_read_of_not_mem h hr, hregs r]
  exact ⟨hread .A, hread .B, hread .C, Machine.exec_pc_congr (fun r _ => hregs r) rfl rfl h' h,
    Machine.exec_out_congr (fun r _ => hregs r) rfl rfl h' h rfl⟩

/-- Settles O30: the ways an instruction can end, each with its `pc`, `steps` and `err`. -/
theorem completedInstructionAdvancesPcBySixOrJumps : Obligations.CompletedInstructionAdvancesPcBySixOrJumps := by
  intro i s t h
  rcases Machine.exec_cases h with ⟨hw, rfl⟩ | ⟨lit, rfl, htaken, -, rfl⟩ | ⟨lit, rfl, htaken, hvalid, rfl⟩ |
    ⟨-, -, -, rfl⟩ | ⟨-, -, r, v, rfl⟩ | ⟨-, -, v, rfl⟩
  · exact .inr (.inr (.inr ⟨hw, rfl, rfl, rfl⟩))
  · exact .inr (.inr (.inl ⟨lit, rfl, (Machine.jumpTaken_iff s).1 htaken, rfl, rfl, rfl⟩))
  · obtain ⟨haligned, hbound⟩ := (Machine.jumpTargetValid_iff _ s).1 hvalid
    exact .inr (.inl ⟨lit, rfl, (Machine.jumpTaken_iff s).1 htaken, rfl, rfl, rfl, haligned, hbound⟩)
  · exact .inl ⟨rfl, rfl, rfl⟩
  · exact .inl (by simp)
  · exact .inl ⟨rfl, rfl, rfl⟩

end Sys2Proof

/-! ## Errors and run state (10_state.md R17; 60_exceptions.md R130 to R138) -/

namespace Sys2Proof.Machine

/-- A state of a run commits to Halted or Running, never to an error. -/
theorem State.commit_status_ne_faulted {u : State} (h : u.status = .running) (n : Nat) :
    (u.commit n).status ≠ .faulted := by
  rw [State.commit_status, h]
  split <;> simp

/-- An instruction whose operand and taken target pass their checks completes. -/
theorem exec_of_checks {i : Instr} {s t : State} (h : exec i s = .next t) (hrun : s.status = .running)
    (hw : i.wellFormed = true)
    (htarget : ∀ n, i = .jumpIfA n → s.a ≠ 0 → n.toNat % 6 = 0 ∧ n.toNat ≤ s.progBits) :
    t.status ≠ .faulted ∧ t.err = s.err := by
  rcases exec_cases h with ⟨hbad, -⟩ | ⟨lit, hi, htaken, hinvalid, -⟩ | ⟨lit, -, -, -, rfl⟩ | ⟨-, -, -, rfl⟩ |
    ⟨-, -, r, v, rfl⟩ | ⟨-, -, v, rfl⟩
  · exact absurd (hw.symm.trans hbad) (by decide)
  · have hvalid := (jumpTargetValid_iff _ s).2 (htarget lit hi ((jumpTaken_iff s).1 htaken))
    exact absurd (hvalid.symm.trans hinvalid) (by decide)
  · exact ⟨State.commit_status_ne_faulted hrun _, rfl⟩
  · exact ⟨State.commit_status_ne_faulted hrun _, rfl⟩
  · exact ⟨State.commit_status_ne_faulted ((s.write_status r v).trans hrun) _, s.write_err r v⟩
  · exact ⟨State.commit_status_ne_faulted ((s.append_status v).trans hrun) _, rfl⟩

section Checks

variable {s t : State} (hrun : s.status = .running) (hstep : step s = .next t)
include hrun hstep

theorem step_of_limitReached (hlimit : s.maxSteps ≤ s.steps) : t = s.raise .stepLimitExceeded s.steps := by
  rcases step_running_cases hrun with ⟨-, h⟩ | ⟨hlt, -⟩ | ⟨hlt, -⟩ | ⟨hlt, -⟩
  · exact Host.Outcome.next.inj (hstep.symm.trans h)
  all_goals omega

theorem step_of_misaligned (hlimit : s.steps < s.maxSteps) (hpc : s.pc % 6 ≠ 0) : t = s.raise .misaligned s.pc := by
  rcases step_running_cases hrun with ⟨hle, -⟩ | ⟨-, -, h⟩ | ⟨-, ha, -⟩ | ⟨-, ha, -⟩
  · omega
  · exact Host.Outcome.next.inj (hstep.symm.trans h)
  · exact absurd ha hpc
  · exact absurd ha hpc

theorem step_of_outOfRange (hlimit : s.steps < s.maxSteps) (hpc : s.pc % 6 = 0) (hr : s.progBits < s.pc + 6) :
    t = s.raise .outOfRange s.pc := by
  rcases step_running_cases hrun with ⟨hle, -⟩ | ⟨-, hne, -⟩ | ⟨-, -, -, h⟩ | ⟨-, -, hwhole, -⟩
  · omega
  · exact absurd hpc hne
  · exact Host.Outcome.next.inj (hstep.symm.trans h)
  · exact absurd hr (Nat.not_lt.2 hwhole)

/-- A step of a run that ends `Faulted` is one error entry. -/
theorem step_faulted_raise (hfault : t.status = .faulted) :
    ∃ e info, t = s.raise e info ∧ e ≠ .none ∧ e ≠ .encodingError := by
  rcases step_running_ends hrun hstep with ⟨e, info, ht, hne, hnenc, -⟩ | ⟨u, n, rfl, -, -, -, hu, -⟩
  · exact ⟨e, info, ht, hne, hnenc⟩
  · exact absurd hfault (State.commit_status_ne_faulted hu n)

/-- No step of a run writes the program store or the parameter `MAX_STEPS` (20_memory.md section 8). -/
theorem step_running_prog_maxSteps : t.prog = s.prog ∧ t.maxSteps = s.maxSteps := by
  rcases step_running_ends hrun hstep with ⟨e, info, rfl, -⟩ |
    ⟨u, n, rfl, -, -, -, -, -, -, -, hprog, -, hmax, -⟩
  · exact ⟨rfl, rfl⟩
  · exact ⟨hprog, hmax⟩

/-- A step of a run appends at most one value, and then counts itself. -/
theorem step_running_out : ∃ vs, t.out = s.out ++ vs ∧ vs.length + s.steps ≤ t.steps := by
  rcases step_running_ends hrun hstep with ⟨e, info, rfl, -⟩ |
    ⟨u, n, rfl, -, -, -, -, -, -, hsteps, -, -, -, hout⟩
  · exact ⟨[], by simp⟩
  · rcases hout with hout | ⟨v, hout⟩
    · exact ⟨[], by simp [hout, hsteps]⟩
    · exact ⟨[v], by simp [hout, hsteps, Nat.add_comm]⟩

/-- In a run without an earlier error, a decode error recorded after a step names the failing check of its fetch. -/
theorem step_decode_error (hnone : s.err = .none) :
    (t.err = .misaligned → s.pc % 6 ≠ 0) ∧ (t.err = .outOfRange → s.progBits < s.pc + 6) := by
  rcases step_running_ends hrun hstep with ⟨e, info, rfl, -, -, hmis, hrange⟩ | ⟨u, n, rfl, -, -, -, -, herr, -⟩
  · exact ⟨hmis, fun he => (hrange he).2⟩
  · simp [herr, hnone]

end Checks

end Sys2Proof.Machine

namespace Sys2Proof

/-- Settles O34: a faulting step is one error entry, which writes the error record and the status alone. -/
theorem errorsArePrecise : Obligations.ErrorsArePrecise := by
  intro s t hrun hstep hfault
  obtain ⟨e, info, rfl, hne, hnenc⟩ := Machine.step_faulted_raise hrun hstep hfault
  exact ⟨rfl, hne, hnenc⟩

/-- Settles O35: the checks of a step in their order, then those of the instruction it fetched. -/
theorem firstFailingCheckDecidesTheError : Obligations.FirstFailingCheckDecidesTheError := by
  refine fun s t hrun hstep => ⟨Machine.step_of_limitReached hrun hstep, Machine.step_of_misaligned hrun hstep,
    Machine.step_of_outOfRange hrun hstep, fun hlimit i hdec => ?_⟩
  have hexec : Machine.exec i s = .next t := (Machine.step_eq_exec hrun hlimit hdec).symm.trans hstep
  refine ⟨fun hbad => ?_, ?_, Machine.exec_of_checks hexec hrun⟩
  · exact Host.Outcome.next.inj (hexec.symm.trans (Machine.exec_of_not_wellFormed hbad s))
  · rintro n rfl ha hbad
    exact Host.Outcome.next.inj (hexec.symm.trans (Machine.exec_jumpIfA_of_target_bad ha hbad))

/-- Settles O36: `step` answers the state it was given. -/
theorem noStepOutsideARun : Obligations.NoStepOutsideARun := fun _ => Machine.step_of_not_running

/-- Settles O37: an error entry keeps `steps` and `pc`; a commit counts the step and applies the halt test. -/
theorem runningStepHaltsContinuesOrFaults : Obligations.RunningStepHaltsContinuesOrFaults := by
  intro s t hrun hstep
  rcases Machine.step_running_ends hrun hstep with ⟨e, info, rfl, -⟩ |
    ⟨u, n, rfl, -, -, hn, hu, -, -, hsteps, -, hbits, -⟩
  · exact .inr (.inr ⟨rfl, rfl, rfl⟩)
  · by_cases hend : n = s.progBits
    · exact .inl ⟨by simp [hbits, hend], by simp [hsteps], hend⟩
    · exact .inr (.inl ⟨by simp [hbits, hend, hu], by simp [hsteps], lt_of_le_of_ne hn hend⟩)

end Sys2Proof

/-! ## The run invariant (10_state.md R10, R15 to R18) -/

namespace Sys2Proof.Machine

/-- An error entry keeps coherence. -/
theorem State.Inv.raise {s : State} (hinv : s.Inv) {e : ErrCode} (info : Nat) (hne : e ≠ .none)
    (hnenc : e ≠ .encodingError) : (s.raise e info).Inv where
  storeInThrees := hinv.storeInThrees
  pcAligned := hinv.pcAligned
  pcInProgram h := by cases h
  stepsWithinLimit := hinv.stepsWithinLimit
  outWithinSteps := hinv.outWithinSteps
  errExactlyFaulted := by simp [hne]
  errNotEncoding := hnenc

section Coherent

variable {s : State} (hinv : s.Inv) (hrun : s.status = .running)
include hinv hrun

theorem State.Inv.err_eq_none_of_running : s.err = .none :=
  hinv.errExactlyFaulted.2 (by simp [hrun])

/-- A step of a run keeps coherence: `steps < MAX_STEPS` was tested before the commit, the new `pc` is a multiple of 6
within the program, and the halt test leaves a `Running` state below its end. -/
theorem State.Inv.step_running {t : State} (hstep : step s = .next t) : t.Inv := by
  have herrNone := hinv.err_eq_none_of_running hrun
  rcases step_running_ends hrun hstep with ⟨e, info, rfl, hne, hnenc, -⟩ |
    ⟨u, n, rfl, hlimit, haligned, hn, hu, herr, -, hsteps, hprog, hbits, hmax, hout⟩
  · exact hinv.raise info hne hnenc
  · exact {
      storeInThrees := by simpa [hprog] using hinv.storeInThrees
      pcAligned := haligned
      pcInProgram := fun h => by
        have hnotEnd : n ≠ u.progBits := fun hend => by simp [hend] at h
        exact lt_of_le_of_ne (hn.trans_eq hbits.symm) hnotEnd
      stepsWithinLimit := by simp only [State.commit_steps, State.commit_maxSteps]; omega
      outWithinSteps := by
        have hold := hinv.outWithinSteps
        rcases hout with hout | ⟨v, hout⟩
        · simp only [State.commit_out, State.commit_steps, hout, hsteps]; omega
        · simp only [State.commit_out, State.commit_steps, hout, hsteps, List.length_append, List.length_singleton]
          omega
      errExactlyFaulted :=
        iff_of_true (herr.trans herrNone) (State.commit_status_ne_faulted hu n)
      errNotEncoding := by simp [herr, herrNone] }

/-- A step of a run keeps `pc` within the program, and halts only at its end. -/
theorem State.Inv.step_running_runInv {t : State} (hstep : step s = .next t) : t.RunInv := by
  have hinv' := hinv.step_running hrun hstep
  by_cases hok : t.status = .faulted
  · obtain ⟨e, info, rfl, -⟩ := step_faulted_raise hrun hstep hok
    exact ⟨hinv', (hinv.pcInProgram hrun).le, fun h => by cases h⟩
  · obtain ⟨-, hpc, hstatus⟩ := step_completed_haltTest hrun hstep hok
    refine ⟨hinv', hpc, fun hhalted => ?_⟩
    by_contra hne
    simp [hstatus, hne] at hhalted

/-- A coherent run finds its next instruction whole, or stands at a dangling last value (20_memory.md section 5). -/
theorem State.Inv.fetch_whole_or_dangling :
    s.pc + 6 ≤ s.progBits ∨ (s.progBits % 6 = 3 ∧ s.pc + 3 = s.progBits) := by
  have hthrees : s.progBits % 3 = 0 := by simpa [Memory.wf] using hinv.storeInThrees
  have hpc := hinv.pcInProgram hrun
  have haligned := hinv.pcAligned
  omega

end Coherent

/-- Coherence is kept by every step request, in a run or outside one. -/
theorem State.Inv.step {s t : State} (hinv : s.Inv) (hstep : step s = .next t) : t.Inv := by
  by_cases hrun : s.status = .running
  · exact hinv.step_running hrun hstep
  · cases (step_of_not_running hrun).symm.trans hstep
    exact hinv

theorem State.RunInv.step {s t : State} (hinv : s.RunInv) (hstep : step s = .next t) : t.RunInv := by
  by_cases hrun : s.status = .running
  · exact hinv.toInv.step_running_runInv hrun hstep
  · cases (step_of_not_running hrun).symm.trans hstep
    exact hinv

/-- A run starts with `pc` at 0, nothing emitted, no step taken and no error. -/
theorem State.startRun_runInv {s : State} (h : s.prog.wf = true) (a b c : Word) : (s.startRun a b c).RunInv where
  storeInThrees := h
  pcAligned := rfl
  pcInProgram hrun := Nat.pos_of_ne_zero fun hempty : s.progBits = 0 => by
    rw [State.startRun_status, if_pos hempty] at hrun
    cases hrun
  stepsWithinLimit := Nat.zero_le _
  outWithinSteps := Nat.le_refl _
  errExactlyFaulted := iff_of_true rfl (by rw [State.startRun_status]; split <;> simp)
  errNotEncoding := by simp
  pcWithinProgram := Nat.zero_le _
  haltedAtEnd hhalted := by
    by_contra hne
    have hnonempty : s.progBits ≠ 0 := Ne.symm hne
    rw [State.startRun_status, if_neg hnonempty] at hhalted
    cases hhalted

theorem State.reset_runInv : State.reset.RunInv where
  storeInThrees := rfl
  pcAligned := rfl
  pcInProgram h := by cases h
  stepsWithinLimit := Nat.zero_le _
  outWithinSteps := Nat.le_refl _
  errExactlyFaulted := by decide
  errNotEncoding := by decide
  pcWithinProgram := Nat.le_refl _
  haltedAtEnd h := by cases h

/-- What every step request keeps holds at the end of a bounded run. -/
theorem runFor_induction {P : State → Prop} (hkeep : ∀ s t, P s → step s = .next t → P t) (n : Nat) {s : State}
    (hs : P s) : P (runFor n s) := by
  induction n generalizing s with
  | zero => exact hs
  | succ n ih =>
    rw [runFor]
    split
    · exact ih (hkeep s _ hs (step_eq_stepState s))
    · exact hs

/-- LOAD replaces the store by one of `3 * n` bits, outside a run, and changes nothing else. -/
theorem State.Inv.load {s t : State} {vs : List Nat} {r : HostReply} (hinv : s.Inv)
    (h : load vs s = .next (t, r)) : t.Inv := by
  have hwf : t.prog.wf = true := load_wf hinv.storeInThrees h
  by_cases hrun : s.status = .running
  · cases (load_of_running vs hrun).symm.trans h
  · cases hpack : packValues vs with
    | error k =>
      cases (load_of_packValues_error hrun hpack).symm.trans h
      exact hinv
    | ok m =>
      cases (load_of_packValues_ok hrun hpack).symm.trans h
      exact { hinv with storeInThrees := hwf, pcInProgram := fun h => absurd h hrun }

/-- Coherence does not depend on the value of `MAX_STEPS` while no step has been taken. -/
theorem powerOn_inv (s : State) : (powerOn s).Inv :=
  { State.reset_runInv.toInv with stepsWithinLimit := Nat.zero_le _ }

end Sys2Proof.Machine

namespace Sys2Proof

/-- Settles O43: coherence, the bound of `pc` and the place of Halted are kept by a step of a run, and a step request
outside a run changes nothing. -/
theorem everyStepKeepsRunInvariant : Obligations.EveryStepKeepsRunInvariant := fun _ _ => Machine.State.RunInv.step

/-- Settles O44: the reset state and every run start, field by field. -/
theorem runInvariantHoldsAtResetAndRunStart : Obligations.RunInvariantHoldsAtResetAndRunStart :=
  ⟨Machine.State.reset_runInv, fun _ a b c h => ⟨Machine.State.startRun_runInv h a b c,
    Machine.State.startRun_runInv h a 0 0⟩⟩

/-- Settles O45: each operation of the host on its own; a RUN by induction over its steps. -/
theorem everyHostOperationKeepsInvariant : Obligations.EveryHostOperationKeepsInvariant := by
  intro op s t r hinv h
  cases op with
  | powerOn => cases h; exact Machine.powerOn_inv s
  | load vs => exact hinv.load h
  | init a b c => cases h; exact (Machine.State.startRun_runInv hinv.storeInThrees a b c).toInv
  | reinit a => cases h; exact (Machine.State.startRun_runInv hinv.storeInThrees a 0 0).toInv
  | run => cases h; exact Machine.runFor_induction (fun _ _ => Machine.State.Inv.step) _ hinv
  | read => cases h; exact hinv

/-- Settles O38: a coherent `pc` is a multiple of 6, and six bits remain from it unless three do; a step that raises no
error keeps `err`, which is none in a run. -/
theorem decodeErrorsOnlyAtADanglingValue : Obligations.DecodeErrorsOnlyAtADanglingValue := by
  intro s t hinv hrun hstep
  have herrNone := hinv.err_eq_none_of_running hrun
  have hplace := hinv.fetch_whole_or_dangling hrun
  obtain ⟨hmis, hrange⟩ := Machine.step_decode_error hrun hstep herrNone
  have hdangling : t.err = .outOfRange → s.progBits % 6 = 3 ∧ s.pc + 3 = s.progBits := fun he =>
    hplace.resolve_left (Nat.not_le.2 (hrange he))
  refine ⟨fun he => hmis he hinv.pcAligned, hdangling, fun hwhole he => ?_⟩
  have hsix : s.progBits % 6 = 0 := by simpa [Memory.wholeInstrs, Config.ilen] using hwhole
  obtain ⟨hthree, -⟩ := hdangling he
  omega

end Sys2Proof

/-! ## The normative step function (40_execution_cycle.md R80) -/

namespace Sys2Proof.Machine

/-- Phases 2 to 4 of `refStep`, from the numbers of phase 1. -/
def refExecute (s : State) (opcode operand : Nat) : State :=
  if opcode ∈ [0, 2, 5, 6, 7] ∧ operand = 7 then refRaise s .invalidOperand s.pc
  else if opcode = 3 ∧ s.a.toNat ≠ 0 ∧ (operand % 6 ≠ 0 ∨ operand > s.progBits) then
    refRaise s .misalignedJump operand
  else refCommit s opcode operand

theorem refRaise_eq_raise (s : State) (e : ErrCode) (info : Nat) : refRaise s e info = s.raise e info := rfl

/-- `refStep` past its first checks: the instruction word by its two fields. -/
theorem refStep_eq_refExecute {s : State} (hrun : s.status = .running) (hlimit : s.steps < s.maxSteps)
    (hpc : s.pc % 6 = 0) (hwhole : s.pc + 6 ≤ s.progBits) : refStep s =
      refExecute s (bitsVal s.prog / 2 ^ s.pc % 64 % 8) (bitsVal s.prog / 2 ^ s.pc % 64 / 8) := by
  rw [refStep, if_neg (not_not.2 hrun), if_neg (Nat.not_le.2 hlimit), if_neg (not_not.2 hpc),
    if_neg (Nat.not_lt.2 hwhole), refExecute]

/-- Field 7 is the reserved combo operand's alone (30_encoding.md R54). -/
theorem combo_digit_toNat_eq_seven {src : Combo} (h : src.digit.toNat = 7) : src = .reserved := by
  rw [← Combo.ofDigit_digit src, BitVec.eq_of_toNat_eq (y := 7#3) h, Combo.ofDigit_seven]

/-- The transcribed combo value is the model's. -/
theorem refVal_of_comboValue {src : Combo} {s : State} {val : Word} (h : comboValue src s = some val) {opcode : Nat}
    (hkind : opcode ∈ [0, 2, 5, 6, 7]) : refVal s opcode src.digit.toNat = val.toNat := by
  rw [refVal, if_pos hkind]
  cases src with
  | lit v =>
    cases h
    have hv : (Combo.lit v).digit.toNat = v.toNat := by
      have := v.isLt
      simp only [Combo.digit, BitVec.toNat_setWidth]
      omega
    have hle : v.toNat ≤ 3 := Nat.le_of_lt_succ v.isLt
    rw [hv, if_pos hle, BitVec.toNat_setWidth, Nat.mod_eq_of_lt (by omega)]
  | reg r => cases h; cases r <;> rfl
  | reserved => cases h

/-- An opcode of combo kind with an operand that has a value goes straight to the commit. -/
theorem refExecute_of_comboValue {src : Combo} {s : State} {val : Word} (h : comboValue src s = some val)
    {opcode : Nat} (hkind : opcode ∈ [0, 2, 5, 6, 7]) :
    refExecute s opcode src.digit.toNat = refCommit s opcode src.digit.toNat := by
  have hoperand : ¬ src.digit.toNat = 7 := fun h7 => by
    rw [combo_digit_toNat_eq_seven h7] at h
    cases h
  have hjump : opcode ≠ 3 := by rintro rfl; simp at hkind
  rw [refExecute, if_neg (fun hc => hoperand hc.2), if_neg (fun hc => hjump hc.1)]

theorem refExecute_reserved (s : State) {opcode : Nat} (hkind : opcode ∈ [0, 2, 5, 6, 7]) :
    refExecute s opcode Combo.reserved.digit.toNat = s.raise .invalidOperand s.pc := by
  rw [refExecute, if_pos ⟨hkind, rfl⟩, refRaise_eq_raise]

theorem comboValue_eq_none {src : Combo} {s : State} (h : comboValue src s = none) : src = .reserved := by
  cases src with
  | lit v | reg r => cases h
  | reserved => rfl

section ComboKind

variable {i : Instr} (hkind : i.opcode.kind = .combo)
include hkind

theorem opcode_mem_of_comboKind : i.opcode.digit.toNat ∈ [0, 2, 5, 6, 7] := by
  cases hop : i.opcode with
  | divA | modB | emit | divB | divC => decide
  | xorBLit | jumpIfA | xorBC => rw [hop] at hkind; cases hkind

/-- The operand field and the static check of an instruction of combo kind are its combo operand's. -/
theorem operand_and_wellFormed_of_comboKind :
    i.operand = (comboOf i).digit ∧ i.wellFormed = (comboOf i).wellFormed := by
  cases i with
  | divA src | divB src | divC src | modB src | emit src => exact ⟨rfl, rfl⟩
  | xorBLit lit | xorBC lit | jumpIfA lit => cases hkind

theorem resolve_of_comboKind {s : State} {val : Word} (h : comboValue (comboOf i) s = some val) :
    resolve i s = .ok (val, s.pc + 6) := by
  cases i with
  | divA src | divB src | divC src | modB src | emit src => simp [resolve, h, Config.ilen]
  | xorBLit lit | xorBC lit | jumpIfA lit => cases hkind

/-- With a value for its operand, it writes and commits what the transcription computes. -/
theorem exec_eq_refCommit_of_comboValue {s : State} {val : Word} (h : comboValue (comboOf i) s = some val)
    (hrun : s.status = .running) :
    exec i s = .next (refCommit s i.opcode.digit.toNat (comboOf i).digit.toNat) := by
  have hval := refVal_of_comboValue h (opcode_mem_of_comboKind hkind)
  rw [exec_eq_finish, resolve_of_comboKind hkind h, refCommit, hval]
  cases i with
  | divA src | divB src =>
    simp [finish, update, Instr.opcode, Opcode.digit, opcodeMap, State.commit, State.write, hrun, shr_eq_ofNat_div]
  | modB src | divC src =>
    simp [finish, update, Instr.opcode, Opcode.digit, opcodeMap, State.commit, State.write, hrun, zext_mod8_eq_ofNat,
      shr_toNat]
  | emit src =>
    simp [finish, update, Instr.opcode, Opcode.digit, opcodeMap, State.commit, State.append, hrun, mod8_eq_ofNat]
  | xorBLit lit | xorBC lit | jumpIfA lit => cases hkind

theorem exec_eq_refExecute_of_comboKind {s : State} (hrun : s.status = .running) :
    exec i s = .next (refExecute s i.opcode.digit.toNat i.operand.toNat) := by
  obtain ⟨hoperand, hwf⟩ := operand_and_wellFormed_of_comboKind hkind
  have hmem := opcode_mem_of_comboKind hkind
  rw [hoperand]
  cases hval : comboValue (comboOf i) s with
  | none =>
    have hreserved := comboValue_eq_none hval
    rw [exec_of_not_wellFormed (hwf.trans (by rw [hreserved]; rfl)), hreserved, refExecute_reserved s hmem]
  | some val => rw [exec_eq_refCommit_of_comboValue hkind hval hrun, refExecute_of_comboValue hval hmem]

end ComboKind

/-- The transcription on the fields of an instruction is the instruction. -/
theorem exec_eq_refExecute (i : Instr) {s : State} (hrun : s.status = .running) :
    exec i s = .next (refExecute s i.opcode.digit.toNat i.operand.toNat) := by
  cases i with
  | divA src | divB src | divC src | modB src | emit src =>
    exact exec_eq_refExecute_of_comboKind rfl hrun
  | xorBLit lit =>
    show _ = Host.Outcome.next (refExecute s 1 lit.toNat)
    rw [exec_xorBLit, xor_eq_ofNat]
    simp [refExecute, refCommit, refVal, State.advance, State.commit, State.write, hrun, Config.ilen]
  | xorBC lit =>
    show _ = Host.Outcome.next (refExecute s 4 lit.toNat)
    rw [exec_xorBC, xor_eq_ofNat]
    simp [refExecute, refCommit, State.advance, State.commit, State.write, hrun, Config.ilen]
  | jumpIfA lit =>
    show _ = Host.Outcome.next (refExecute s 3 lit.toNat)
    by_cases ha : s.a = 0
    · rw [exec_jumpIfA_of_a_eq_zero lit ha]
      simp [refExecute, refCommit, State.advance, State.commit, hrun, ha, Config.ilen]
    · have htaken : s.a.toNat ≠ 0 := mt (a_eq_zero_iff_toNat s).2 ha
      by_cases hbad : lit.toNat % 6 ≠ 0 ∨ s.progBits < lit.toNat
      · rw [exec_jumpIfA_of_target_bad ha hbad, refExecute, if_neg (by simp), if_pos ⟨rfl, htaken, hbad⟩,
          refRaise_eq_raise]
      · rw [exec_jumpIfA_of_target_valid ha (by omega) (by omega), refExecute, if_neg (by simp),
          if_neg (fun h => hbad h.2.2)]
        simp [refCommit, refVal, State.commit, hrun, htaken]

/-- The fields of the instruction decoded from a number below 64 (30_encoding.md R50). -/
theorem decode_ofNat_fields {w : Nat} (hw : w < 64) :
    (decode (BitVec.ofNat 6 w)).opcode.digit.toNat = w % 8 ∧ (decode (BitVec.ofNat 6 w)).operand.toNat = w / 8 := by
  rw [decode_opcode_digit, decode_operand, BitVec.extractLsb'_toNat, BitVec.extractLsb'_toNat, BitVec.toNat_ofNat,
    Nat.shiftRight_zero, Nat.shiftRight_eq_div_pow]
  omega

end Sys2Proof.Machine

namespace Sys2Proof

/-- Settles O32: the checks in their order, then the instruction by the two fields of its word. -/
theorem stepMatchesTheNormativeStepFunction : Obligations.StepMatchesTheNormativeStepFunction := by
  intro s
  by_cases hrun : s.status = .running
  · rcases Machine.step_running_cases hrun with ⟨hlimit, hstep⟩ | ⟨hlimit, hpc, hstep⟩ | ⟨hlimit, hpc, hr, hstep⟩ |
      ⟨hlimit, hpc, hwhole, i, hdec, hstep⟩
    · simp [hstep, Machine.refStep, Machine.refRaise_eq_raise, hrun, hlimit]
    · simp [hstep, Machine.refStep, Machine.refRaise_eq_raise, hrun, Nat.not_le.2 hlimit, hpc]
    · simp [hstep, Machine.refStep, Machine.refRaise_eq_raise, hrun, Nat.not_le.2 hlimit, hpc, hr]
    · cases (decodeInstruction_of_whole hpc hwhole).symm.trans hdec
      have hword : bitsVal s.prog / 2 ^ s.pc % 64 < 64 := Nat.mod_lt _ (by decide)
      obtain ⟨hop, hoperand⟩ := Machine.decode_ofNat_fields hword
      rw [hstep, Machine.exec_eq_refExecute _ hrun, hop, hoperand,
        Machine.refStep_eq_refExecute hrun hlimit hpc hwhole]
  · rw [Machine.step_of_not_running hrun, Machine.refStep, if_pos hrun]

end Sys2Proof

/-! ## Runs (40_execution_cycle.md R81; 10_state.md section 7; 70_reset_and_hazards.md R167) -/

namespace Sys2Proof.Machine

theorem runFor_succ_of_running (n : Nat) {s t : State} (hrun : s.status = .running) (hstep : step s = .next t) :
    runFor (n + 1) s = runFor n t := by
  obtain rfl := Host.Outcome.next.inj ((step_eq_stepState s).symm.trans hstep)
  exact if_pos hrun

theorem runFor_add (m n : Nat) (s : State) : runFor (m + n) s = runFor n (runFor m s) := by
  induction m generalizing s with
  | zero => rw [Nat.zero_add, runFor]
  | succ m ih =>
    by_cases hrun : s.status = .running
    · rw [Nat.add_right_comm, runFor_succ_of_running _ hrun (step_eq_stepState s),
        runFor_succ_of_running _ hrun (step_eq_stepState s), ih]
    · rw [runFor_of_not_running _ hrun, runFor_of_not_running _ hrun, runFor_of_not_running _ hrun]

theorem core_run_succ {M : Host.Core} (k : Nat) {s t : M.State} (hstep : M.step s = .next t) :
    M.run (k + 1) s = M.run k t := by
  simp only [Host.Core.run, hstep]

/-- Steps of the machine behind the host's interface are steps of a bounded run: after its end they change nothing. -/
theorem core_run_eq_runFor (k : Nat) (s : State) : Sys2Proof.core.run k s = .next (runFor k s) := by
  induction k generalizing s with
  | zero => rfl
  | succ k ih =>
    rw [core_run_succ (M := Sys2Proof.core) k (step_eq_stepState s), ih]
    by_cases hrun : s.status = .running
    · rw [runFor_succ_of_running k hrun (step_eq_stepState s)]
    · have hsame := Host.Outcome.next.inj ((step_eq_stepState s).symm.trans (step_of_not_running hrun))
      rw [hsame, runFor_of_not_running _ hrun, runFor_of_not_running _ hrun]

/-- A step of a run ends it, or uses up one of the steps left. -/
theorem step_running_progress {s t : State} (hrun : s.status = .running) (hstep : step s = .next t) :
    t.status ≠ .running ∨ t.maxSteps - t.steps < s.maxSteps - s.steps := by
  rcases step_running_ends hrun hstep with ⟨e, info, rfl, -⟩ |
    ⟨u, n, rfl, hlimit, -, -, -, -, -, hsteps, -, -, hmax, -⟩
  · exact .inl (by simp)
  · right
    simp only [State.commit_maxSteps, State.commit_steps]
    omega

/-- More step requests than steps are left end the run. -/
theorem runFor_not_running {n : Nat} {s : State} (h : s.maxSteps - s.steps < n) : (runFor n s).status ≠ .running := by
  induction n generalizing s with
  | zero => omega
  | succ n ih =>
    by_cases hrun : s.status = .running
    · rw [runFor_succ_of_running n hrun (step_eq_stepState s)]
      rcases step_running_progress hrun (step_eq_stepState s) with hended | hleft
      · rwa [runFor_of_not_running n hended]
      · exact ih (by omega)
    · rwa [runFor_of_not_running _ hrun]

theorem run_not_running (s : State) : (run s).status ≠ .running := runFor_not_running (Nat.lt_succ_self _)

/-- The bound of RUN is never the reason a run stops (log 17). -/
theorem runFor_eq_run {k : Nat} {s : State} (h : s.maxSteps - s.steps + 1 ≤ k) : runFor k s = run s := by
  obtain ⟨extra, rfl⟩ := Nat.exists_eq_add_of_le h
  rw [runFor_add]
  exact runFor_of_not_running extra (run_not_running s)

theorem step_steps_le {s t : State} (hstep : step s = .next t) : t.steps ≤ max s.steps s.maxSteps ∧
    t.maxSteps = s.maxSteps := by
  by_cases hrun : s.status = .running
  · refine ⟨?_, (step_running_prog_maxSteps hrun hstep).2⟩
    rcases step_running_ends hrun hstep with ⟨e, info, rfl, -⟩ | ⟨u, n, rfl, hlimit, -, -, -, -, -, hsteps, -⟩
    · exact le_max_left ..
    · simp only [State.commit_steps]
      omega
  · cases (step_of_not_running hrun).symm.trans hstep
    exact ⟨le_max_left .., rfl⟩

/-- A run does not count beyond its limit. -/
theorem runFor_steps_le (n : Nat) (s : State) :
    (runFor n s).steps ≤ max s.steps s.maxSteps ∧ (runFor n s).maxSteps = s.maxSteps := by
  refine runFor_induction (P := fun t => t.steps ≤ max s.steps s.maxSteps ∧ t.maxSteps = s.maxSteps) ?_ n
    ⟨le_max_left .., rfl⟩
  rintro t t' ⟨hsteps, hmax⟩ hstep
  obtain ⟨hsteps', hmax'⟩ := step_steps_le hstep
  exact ⟨by omega, hmax'.trans hmax⟩

/-- A run appends to `out`, at most one value for each step it counts. -/
theorem runFor_out (n : Nat) (s : State) :
    ∃ vs, (runFor n s).out = s.out ++ vs ∧ vs.length + s.steps ≤ (runFor n s).steps := by
  refine runFor_induction (P := fun t => ∃ vs, t.out = s.out ++ vs ∧ vs.length + s.steps ≤ t.steps) ?_ n ⟨[], by simp⟩
  rintro t t' ⟨vs, hout, hlen⟩ hstep
  by_cases hrun : t.status = .running
  · obtain ⟨ws, hout', hlen'⟩ := step_running_out hrun hstep
    exact ⟨vs ++ ws, by rw [hout', hout, List.append_assoc], by rw [List.length_append]; omega⟩
  · cases (step_of_not_running hrun).symm.trans hstep
    exact ⟨vs, hout, hlen⟩

end Sys2Proof.Machine

namespace Sys2Proof

/-- Settles O31: by induction along the run. -/
theorem outputIsAppendOnlyAlongRuns : Obligations.OutputIsAppendOnlyAlongRuns := Machine.runFor_out

/-- Settles O46: each step of a run ends it or leaves fewer steps, and after its end nothing changes. -/
theorem everyRunEndsWithinStepLimit : Obligations.EveryRunEndsWithinStepLimit := fun s k hk =>
  ⟨(Machine.core_run_eq_runFor k s).trans (congrArg _ (Machine.runFor_eq_run hk)), Machine.run_not_running s,
    (Machine.runFor_steps_le _ s).1⟩

end Sys2Proof

/-! ## Reset, run start and READ (10_state.md section 6; 70_reset_and_hazards.md R160 to R168) -/

namespace Sys2Proof

/-- Settles O39: the reset state, and power-on, which replaces all but MAX_STEPS by it. -/
theorem powerOnLeavesSpecifiedValues : Obligations.PowerOnLeavesSpecifiedValues :=
  ⟨rfl, rfl, rfl, rfl, rfl, rfl, rfl, fun _ => ⟨_, rfl, rfl, rfl, rfl, rfl, rfl, rfl, rfl⟩⟩

/-- Settles O40: INIT is the start of a run, and REINIT that start with B = C = 0. -/
theorem initAndReinitStartAFreshRun : Obligations.InitAndReinitStartAFreshRun := fun _ _ _ _ => ⟨rfl, rfl⟩

/-- Settles O41: the halt test at run start leaves no run, so RUN changes nothing. -/
theorem emptyProgramHaltsAtOnce : Obligations.EmptyProgramHaltsAtOnce := by
  intro s a b c hempty
  have hstatus : (Machine.init a b c s).status = .halted := if_pos (by simp [hempty])
  rw [Machine.run, Machine.runFor_of_not_running _ (by simp [hstatus])]
  simp [Machine.init, Machine.State.startRun, hempty]

/-- Settles O42: READ is the nine fields of the state it leaves. -/
theorem readReturnsStateAndChangesNothing : Obligations.ReadReturnsStateAndChangesNothing := fun _ => rfl

/-- Settles O47: INIT keeps the store and MAX_STEPS alone, so the two runs start in the same state. -/
theorem runDependsOnlyOnRegistersProgramAndLimit : Obligations.RunDependsOnlyOnRegistersProgramAndLimit := by
  intro s s' a b c hprog hmax
  have hstart : Machine.init a b c s = Machine.init a b c s' := by
    simp [Machine.init, Machine.State.startRun, Machine.State.progBits, hprog, hmax]
  rw [hstart]

end Sys2Proof

/-! ## Runs and their limit (90_conflicts.md C13; 43_jump.md R112) -/

namespace Sys2Proof.Machine

/-! ### The limit is read at the start of a step only -/

section WithMaxSteps

variable (limit : Nat)

@[simp] theorem update_withMaxSteps (i : Instr) (val : Word) (s : State) :
    update i val (s.withMaxSteps limit) = (update i val s).withMaxSteps limit := by
  cases i <;> rfl

theorem exec_withMaxSteps {i : Instr} {s t : State} (h : exec i s = .next t) :
    exec i (s.withMaxSteps limit) = .next (t.withMaxSteps limit) := by
  have hres : resolve i (s.withMaxSteps limit) = resolve i s :=
    resolve_congr (fun r _ => by cases r <;> rfl) rfl rfl
  obtain rfl := exec_eq_next_iff.1 h
  rw [exec_eq_next_iff, hres]
  rcases resolve i s with ⟨e, info⟩ | ⟨val, n⟩
  · rfl
  · rw [finish, finish, update_withMaxSteps]
    rfl

theorem step_of_decode_error {s : State} {e : DecodeError} (hrun : s.status = .running) (hlimit : s.steps < s.maxSteps)
    (hdec : decodeInstruction s.prog s.pc = .error e) : step s = .next (s.raiseDecode e) := by
  simp [step, hrun, State.limitReached, Nat.not_le.2 hlimit, State.fetch, hdec]

/-- Below both limits a step does not depend on the limit. -/
theorem step_withMaxSteps {s t : State} (hrun : s.status = .running) (hlimit : s.steps < s.maxSteps)
    (hle : s.maxSteps ≤ limit) (hstep : step s = .next t) :
    step (s.withMaxSteps limit) = .next (t.withMaxSteps limit) := by
  have hlimit' : (s.withMaxSteps limit).steps < (s.withMaxSteps limit).maxSteps := hlimit.trans_le hle
  cases hdec : decodeInstruction s.prog s.pc with
  | error e =>
    cases (step_of_decode_error hrun hlimit hdec).symm.trans hstep
    rw [step_of_decode_error (s := s.withMaxSteps limit) hrun hlimit' hdec]
    cases e <;> rfl
  | ok i =>
    rw [step_eq_exec (s := s.withMaxSteps limit) hrun hlimit' hdec]
    exact exec_withMaxSteps limit ((step_eq_exec hrun hlimit hdec).symm.trans hstep)

/-- A run that is not cut by its limit goes the same way under a larger one. -/
theorem runFor_withMaxSteps {n : Nat} {s : State} (hle : s.maxSteps ≤ limit)
    (hend : ¬ ((runFor n s).status = .faulted ∧ (runFor n s).err = .stepLimitExceeded)) :
    runFor n (s.withMaxSteps limit) = (runFor n s).withMaxSteps limit := by
  induction n generalizing s with
  | zero => rfl
  | succ n ih =>
    by_cases hrun : s.status = .running
    · have hstep := step_eq_stepState s
      rw [runFor_succ_of_running n hrun hstep] at hend ⊢
      have hlimit : s.steps < s.maxSteps := by
        by_contra hreached
        have hraise := step_of_limitReached hrun hstep (Nat.not_lt.1 hreached)
        rw [hraise, runFor_of_not_running n (by simp)] at hend
        exact hend ⟨rfl, rfl⟩
      have hmax : (stepState s).maxSteps ≤ limit := (step_steps_le hstep).2.trans_le hle
      rw [runFor_succ_of_running n (s := s.withMaxSteps limit) hrun (step_withMaxSteps limit hrun hlimit hle hstep),
        ih hmax hend]
    · rw [runFor_of_not_running _ hrun, runFor_of_not_running (s := s.withMaxSteps limit) _ hrun]

end WithMaxSteps

/-! ### A jump to itself -/

section SelfJump

variable {n : Digit} {s : State} (hrun : s.status = .running) (hpc : s.pc = n.toNat) (ha : s.a ≠ 0)
  (hdec : decodeInstruction s.prog n.toNat = .ok (.jumpIfA n))
include hrun hpc ha hdec

/-- A step of a jump to itself below the limit counts itself and changes nothing else. -/
theorem step_selfJump (hlimit : s.steps < s.maxSteps) : step s = .next { s with steps := s.steps + 1 } := by
  obtain ⟨haligned, hfetched, -⟩ := decodeInstruction_ok hdec
  have hwhole : n.toNat + 6 ≤ s.progBits := hfetched
  have hnotEnd : n.toNat ≠ s.progBits := by omega
  rw [step_eq_exec hrun hlimit (by rwa [hpc]), exec_jumpIfA_of_target_valid ha haligned (by omega), State.commit,
    if_neg hnotEnd, ← hpc]

/-- The loop counts up to its limit, and the step after that raises the limit's error. -/
theorem runFor_selfJump {left : Nat} (hleft : s.maxSteps - s.steps = left) : runFor (left + 1) s = { s with
    steps := max s.steps s.maxSteps
    status := .faulted
    err := .stepLimitExceeded
    errInfo := max s.steps s.maxSteps } := by
  induction left generalizing s with
  | zero =>
    have hreached : s.maxSteps ≤ s.steps := by omega
    rw [runFor_succ_of_running 0 hrun (step_eq_stepState s),
      step_of_limitReached hrun (step_eq_stepState s) hreached, max_eq_left hreached]
    rfl
  | succ left ih =>
    have hlimit : s.steps < s.maxSteps := by omega
    have hmax : max (s.steps + 1) s.maxSteps = max s.steps s.maxSteps := by omega
    rw [runFor_succ_of_running (left + 1) hrun (step_selfJump hrun hpc ha hdec hlimit),
      ih (s := { s with steps := s.steps + 1 }) hrun hpc ha hdec (by simp only; omega)]
    simp only [hmax]

end SelfJump

end Sys2Proof.Machine

namespace Sys2Proof

/-- Settles O26: the fetch leaves the literals 0 and 6, and the loop ends at its limit. -/
theorem jumpToItselfEndsOnlyByStepLimit : Obligations.JumpToItselfEndsOnlyByStepLimit := by
  intro s n hrun hpc ha hdec
  obtain ⟨haligned, -, -⟩ := decodeInstruction_ok hdec
  refine ⟨?_, Machine.runFor_selfJump hrun hpc ha hdec rfl⟩
  by_cases hzero : n = 0
  · exact .inl hzero
  · have hpos : n.toNat ≠ 0 := fun h => hzero (BitVec.eq_of_toNat_eq h)
    exact .inr (Machine.literal_eq_six haligned (by omega))

/-- Settles O48: the longer bound adds steps after the end of the run only. -/
theorem runEndingWithinLimitDoesNotDependOnIt : Obligations.RunEndingWithinLimitDoesNotDependOnIt := by
  intro s limit hle hend
  have hbound : s.maxSteps - s.steps + 1 ≤ limit - s.steps + 1 := by omega
  rw [← Machine.runFor_eq_run hbound] at hend ⊢
  exact Machine.runFor_withMaxSteps limit hle hend

end Sys2Proof

/-! ## Cautious programs (70_reset_and_hazards.md R174; 92_eei_decisions.md D7, D8) -/

namespace Sys2Proof

theorem Memory.wholeInstrs_of_cautious {m : Memory} (h : m.cautious = true) : m.length % 6 = 0 := by
  simp only [Memory.cautious, Memory.wholeInstrs, Bool.and_eq_true, beq_iff_eq] at h
  exact h.1

/-- Whatever the fetch finds in a cautious program is a cautious instruction. -/
theorem Memory.cautious_fetch {m : Memory} {off : Nat} {i : Instr} (h : m.cautious = true)
    (hdec : decodeInstruction m off = .ok i) : i.cautious = true := by
  obtain ⟨haligned, hwhole, -⟩ := decodeInstruction_ok hdec
  have hmem : off / 6 ∈ List.range (m.length / Config.ilen) := List.mem_range.2 (by simp only [Config.ilen]; omega)
  have hoff : Config.ilen * (off / 6) = off := by simp only [Config.ilen]; omega
  rw [Memory.cautious, Bool.and_eq_true, List.all_eq_true] at h
  obtain ⟨-, hall⟩ := h
  simpa [hoff, hdec] using hall _ hmem

/-- A cautious instruction has no reserved operand, and jumps to 0 or 6. -/
theorem Instr.cautious_checks {i : Instr} (h : i.cautious = true) :
    i.wellFormed = true ∧ ∀ n, i = .jumpIfA n → n = 0 ∨ n = 6 := by
  cases i with
  | jumpIfA lit => exact ⟨rfl, by rintro n ⟨⟩; simpa [Instr.cautious, jumpLiteralValid] using h⟩
  | divA src | modB src | emit src | divB src | divC src | xorBLit lit | xorBC lit => exact ⟨h, by simp⟩

namespace Machine

/-- A step of a coherent run of a cautious program raises no error but the step limit: the fetch is whole, and the
targets 0 and 6 are within a program that holds the jump. -/
theorem step_cautious_error {s t : State} (hinv : s.Inv) (hcautious : s.prog.cautious = true)
    (hrun : s.status = .running) (hstep : step s = .next t) (hfault : t.status = .faulted) :
    t.err = .stepLimitExceeded := by
  by_cases hlimit : s.steps < s.maxSteps
  · have hsix : s.progBits % 6 = 0 := Memory.wholeInstrs_of_cautious hcautious
    have hwhole : s.pc + 6 ≤ s.progBits := (hinv.fetch_whole_or_dangling hrun).resolve_right (by omega)
    have hdec := decodeInstruction_of_whole hinv.pcAligned hwhole
    obtain ⟨hwf, hjump⟩ := Instr.cautious_checks (Memory.cautious_fetch hcautious hdec)
    have htarget : ∀ n : Digit, n = 0 ∨ n = 6 → n.toNat % 6 = 0 ∧ n.toNat ≤ s.progBits := by
      rintro n (rfl | rfl)
      · exact ⟨rfl, Nat.zero_le _⟩
      · exact ⟨rfl, le_of_add_le_right hwhole⟩
    obtain ⟨hok, -⟩ := exec_of_checks ((step_eq_exec hrun hlimit hdec).symm.trans hstep) hrun hwf
      (fun n hn _ => htarget n (hjump n hn))
    exact absurd hfault hok
  · rw [step_of_limitReached hrun hstep (Nat.not_lt.1 hlimit), State.raise_err]

/-- What holds along the run of a cautious program. -/
structure State.CautiousRun (s : State) : Prop where
  inv : s.Inv
  cautious : s.prog.cautious = true
  started : s.status ≠ .idle
  onlyLimit : s.status = .faulted → s.err = .stepLimitExceeded

theorem State.CautiousRun.step {s t : State} (h : s.CautiousRun) (hstep : step s = .next t) : t.CautiousRun := by
  by_cases hrun : s.status = .running
  · obtain ⟨hprog, -⟩ := step_running_prog_maxSteps hrun hstep
    refine ⟨h.inv.step hstep, hprog ▸ h.cautious, fun hidle => ?_, step_cautious_error h.inv h.cautious hrun hstep⟩
    rcases runningStepHaltsContinuesOrFaults s t hrun hstep with ⟨hs, -⟩ | ⟨hs, -⟩ | ⟨hs, -⟩
    all_goals cases hs.symm.trans hidle
  · cases (step_of_not_running hrun).symm.trans hstep
    exact h

theorem State.startRun_cautiousRun {s : State} (h : s.prog.cautious = true) (a b c : Word) :
    (s.startRun a b c).CautiousRun where
  inv := by
    have hsix := Memory.wholeInstrs_of_cautious h
    have hwf : s.prog.wf = true := by simp only [Memory.wf, beq_iff_eq]; omega
    exact (State.startRun_runInv hwf a b c).toInv
  cautious := h
  started := by rw [State.startRun_status]; split <;> simp
  onlyLimit hfault := by
    rw [State.startRun_status] at hfault
    split at hfault <;> cases hfault

end Machine

/-- Settles O49: the run of a cautious program keeps coherence and faults by the limit alone; it ends, and not in
`Idle`. -/
theorem cautiousProgramFailsOnlyByStepLimit : Obligations.CautiousProgramFailsOnlyByStepLimit := by
  intro s a b c h
  have hend : (Machine.run (Machine.init a b c s)).CautiousRun :=
    Machine.runFor_induction (fun _ _ => Machine.State.CautiousRun.step) _ (Machine.State.startRun_cautiousRun h a b c)
  have hended := Machine.run_not_running (Machine.init a b c s)
  cases hstatus : (Machine.run (Machine.init a b c s)).status with
  | idle => exact absurd hstatus hend.started
  | running => exact absurd hstatus hended
  | halted => exact .inl hstatus
  | faulted => exact .inr ⟨rfl, hend.onlyLimit hstatus⟩

end Sys2Proof
